-- ==== Sys2Proof/Word.lean ====
section
/-! DEFINITION. Machine words: the coded byte (30 R49) and the signed 16-bit register and sample (10 R18, R31). -/

namespace Sys2Proof

/-- A coded byte: 8 bits, bit 7 the most significant (30 R49, 20 R39). -/
abbrev Byte := BitVec 8

/-- An int16: the contents of a ChannelState register, a table entry, a sample. Its value is `toInt` (00 R7). -/
abbrev Word := BitVec 16

end Sys2Proof
end

