-- ==== Sys2Proof/Config.lean ====
section
/-! DEFINITION. The parameter TABLES (00 R4): the shapes of the four ROM tables. The contents are not in the spec (91 N1); an instance stands in State, and Machine/Rom.lean names the one that State.reset takes. -/

namespace Sys2Proof

/-- An instance of the parameter TABLES (00 R4). The shapes are those of 10 R23 to R26. -/
structure Tables where
  /-- wide-stride delta table, 8 entries (10 R23) -/
  wdt : Vector Word 8
  /-- wide-stride step table, 128 rows of 4 columns (10 R24) -/
  wst : Vector (Vector Word 4) 128
  /-- narrow-stride delta table, 4 entries (10 R25) -/
  ndt : Vector Word 4
  /-- narrow-stride step table, 128 rows of 2 columns (10 R26) -/
  nst : Vector (Vector Word 2) 128
deriving DecidableEq, Repr

/-- One table family of stride `s` (30 R52): its step table and its delta table, whose length is the number of codedValues, 2s. -/
structure Family (s : Nat) where
  steps  : Vector (Vector Word s) 128
  deltas : Vector Word (2 * s)
deriving DecidableEq, Repr

end Sys2Proof
end

