-- ==== Sys2Proof/Machine/Rom.lean ====
section
/-! DEFINITION. ConstantTables (00 R2): the two table families of an instance of TABLES, the constraints an instance must meet (10 R27), and the instance that State.reset takes (log 2). -/

namespace Sys2Proof

/-- The wide-stride family: stride 4, WST and WDT, used by slots 0 and 2 (30 R52). -/
def Tables.wideStride (t : Tables) : Family 4 := ⟨t.wst, t.wdt⟩

/-- The narrow-stride family: stride 2, NST and NDT, used by slot 1 (30 R52). -/
def Tables.narrowStride (t : Tables) : Family 2 := ⟨t.nst, t.ndt⟩

/-- Constraint (a) of 10 R27 on one family: every step entry is in [0, 32767]. -/
def Family.stepsOk {s : Nat} (f : Family s) : Bool :=
  f.steps.toList.all fun row => row.toList.all fun w => decide (0 ≤ w.toInt)

/-- Constraint (b) of 10 R27 on one family: every delta entry is in [-32768, 1023] (the lower bound is int16's own). -/
def Family.deltasOk {s : Nat} (f : Family s) : Bool :=
  f.deltas.toList.all fun w => decide (w.toInt ≤ 1023)

/-- Constraint (c) of 10 R27: WST[0][0] = 37 and WDT[0] = -13 (10 R28). -/
def Tables.knownOk (t : Tables) : Bool :=
  decide (t.wst[0][0].toInt = 37) && decide (t.wdt[0].toInt = -13)

/-- The constraints (a), (b), (c) of 10 R27 on an instance of TABLES. -/
def Tables.conforms (t : Tables) : Bool :=
  t.wideStride.stepsOk && t.narrowStride.stepsOk && t.wideStride.deltasOk && t.narrowStride.deltasOk && t.knownOk

namespace Machine

/-- The instance TEST of 95 §0: synthetic, not the codec's data. -/
def testTables : Tables where
  wdt := #v[-13, 10, 80, 200, 200, 80, 10, -13]
  wst := Vector.ofFn fun r => Vector.ofFn fun j => BitVec.ofNat 16 (37 + 64 * r.val + 200 * j.val)
  ndt := #v[-20, 150, 150, -20]
  nst := Vector.ofFn fun r => Vector.ofFn fun j => BitVec.ofNat 16 (60 + 96 * r.val + 300 * j.val)

/-- The TABLES instance in the ROM of State.reset. DESIGN CHOICE (log 2), unsafe: the codec's values are in no source (91 N1), so the model takes the one complete instance the spec gives. No statement rests on it. -/
def romInstance : Tables := testTables

end Machine

end Sys2Proof
end

