-- ==== Sys2Proof/Syntax.lean ====
section
/-! DEFINITION. The modes, the slots, and the instructions: one constructor of Instr per row of spec/opcode_table.json, in the table's order. -/

namespace Sys2Proof

/-- CompressionMode, the contents of MODE (10 R14). -/
inductive Mode where
  | narrow
  | wide
deriving DecidableEq, Repr

/-- The slot within a coded byte, the cursor's component l in [0, 3) (10 R29, 30 R49). -/
inductive Slot where
  | s0
  | s1
  | s2
deriving DecidableEq, Repr

/-- The three kinds of row of the opcode table (30, introduction): a byte format, a slot operation with its operand, a variant (mode, slot, codedValue). -/
inductive RowKind where
  | byteFormat
  | slotOperation
  | variant
deriving DecidableEq, Repr

/-- The instructions. MODE and the slot position select an operation; no bit of the byte does (30 R56). -/
inductive Instr where
  /-- NBYTE: Narrow byte format cccbbaaa; a, b, c are the codedValues of slots 0, 1, 2 (30 R50) -/
  | nbyte (a : BitVec 3) (b : BitVec 2) (c : BitVec 3)
  /-- WBYTE: Wide byte format aaabbccc (30 R51) -/
  | wbyte (a : BitVec 3) (b : BitVec 2) (c : BitVec 3)
  /-- N.S0 v (42 R84) -/
  | ns0 (v : BitVec 3)
  /-- N.S1 v (42 R85) -/
  | ns1 (v : BitVec 2)
  /-- N.S2 v (42 R86) -/
  | ns2 (v : BitVec 3)
  /-- W.S0 v (42 R87) -/
  | ws0 (v : BitVec 3)
  /-- W.S1 v (42 R88) -/
  | ws1 (v : BitVec 2)
  /-- W.S2 v (42 R89) -/
  | ws2 (v : BitVec 3)
  -- N.S0 0 to N.S0 7: the variants, one per codedValue (30 R54; 40 R60, R61)
  | ns0_0
  | ns0_1
  | ns0_2
  | ns0_3
  | ns0_4
  | ns0_5
  | ns0_6
  | ns0_7
  -- N.S1 0 to N.S1 3: the variants, one per codedValue (30 R54; 40 R60, R61)
  | ns1_0
  | ns1_1
  | ns1_2
  | ns1_3
  -- N.S2 0 to N.S2 7: the variants, one per codedValue (30 R54; 40 R60, R61)
  | ns2_0
  | ns2_1
  | ns2_2
  | ns2_3
  | ns2_4
  | ns2_5
  | ns2_6
  | ns2_7
  -- W.S0 0 to W.S0 7: the variants, one per codedValue (30 R54; 40 R60, R61)
  | ws0_0
  | ws0_1
  | ws0_2
  | ws0_3
  | ws0_4
  | ws0_5
  | ws0_6
  | ws0_7
  -- W.S1 0 to W.S1 3: the variants, one per codedValue (30 R54; 40 R60, R61)
  | ws1_0
  | ws1_1
  | ws1_2
  | ws1_3
  -- W.S2 0 to W.S2 7: the variants, one per codedValue (30 R54; 40 R60, R61)
  | ws2_0
  | ws2_1
  | ws2_2
  | ws2_3
  | ws2_4
  | ws2_5
  | ws2_6
  | ws2_7
deriving DecidableEq, Repr

/-- The mode whose operation an instruction is (the table's "mode"). -/
def Instr.mode : Instr → Mode
  | .nbyte _ _ _ => .narrow
  | .wbyte _ _ _ => .wide
  | .ns0 _ => .narrow
  | .ns1 _ => .narrow
  | .ns2 _ => .narrow
  | .ws0 _ => .wide
  | .ws1 _ => .wide
  | .ws2 _ => .wide
  | .ns0_0 | .ns0_1 | .ns0_2 | .ns0_3 | .ns0_4 | .ns0_5 | .ns0_6 | .ns0_7 => .narrow
  | .ns1_0 | .ns1_1 | .ns1_2 | .ns1_3 => .narrow
  | .ns2_0 | .ns2_1 | .ns2_2 | .ns2_3 | .ns2_4 | .ns2_5 | .ns2_6 | .ns2_7 => .narrow
  | .ws0_0 | .ws0_1 | .ws0_2 | .ws0_3 | .ws0_4 | .ws0_5 | .ws0_6 | .ws0_7 => .wide
  | .ws1_0 | .ws1_1 | .ws1_2 | .ws1_3 => .wide
  | .ws2_0 | .ws2_1 | .ws2_2 | .ws2_3 | .ws2_4 | .ws2_5 | .ws2_6 | .ws2_7 => .wide

/-- The slot at which an instruction stands (the table's "slot"); a byte format begins at slot 0. -/
def Instr.slot : Instr → Slot
  | .nbyte _ _ _ => .s0
  | .wbyte _ _ _ => .s0
  | .ns0 _ => .s0
  | .ns1 _ => .s1
  | .ns2 _ => .s2
  | .ws0 _ => .s0
  | .ws1 _ => .s1
  | .ws2 _ => .s2
  | .ns0_0 | .ns0_1 | .ns0_2 | .ns0_3 | .ns0_4 | .ns0_5 | .ns0_6 | .ns0_7 => .s0
  | .ns1_0 | .ns1_1 | .ns1_2 | .ns1_3 => .s1
  | .ns2_0 | .ns2_1 | .ns2_2 | .ns2_3 | .ns2_4 | .ns2_5 | .ns2_6 | .ns2_7 => .s2
  | .ws0_0 | .ws0_1 | .ws0_2 | .ws0_3 | .ws0_4 | .ws0_5 | .ws0_6 | .ws0_7 => .s0
  | .ws1_0 | .ws1_1 | .ws1_2 | .ws1_3 => .s1
  | .ws2_0 | .ws2_1 | .ws2_2 | .ws2_3 | .ws2_4 | .ws2_5 | .ws2_6 | .ws2_7 => .s2

/-- The kind of an instruction's row. -/
def Instr.kind : Instr → RowKind
  | .nbyte _ _ _ | .wbyte _ _ _ => .byteFormat
  | .ns0 _ | .ns1 _ | .ns2 _ | .ws0 _ | .ws1 _ | .ws2 _ => .slotOperation
  | .ns0_0 | .ns0_1 | .ns0_2 | .ns0_3 | .ns0_4 | .ns0_5 | .ns0_6 | .ns0_7 => .variant
  | .ns1_0 | .ns1_1 | .ns1_2 | .ns1_3 => .variant
  | .ns2_0 | .ns2_1 | .ns2_2 | .ns2_3 | .ns2_4 | .ns2_5 | .ns2_6 | .ns2_7 => .variant
  | .ws0_0 | .ws0_1 | .ws0_2 | .ws0_3 | .ws0_4 | .ws0_5 | .ws0_6 | .ws0_7 => .variant
  | .ws1_0 | .ws1_1 | .ws1_2 | .ws1_3 => .variant
  | .ws2_0 | .ws2_1 | .ws2_2 | .ws2_3 | .ws2_4 | .ws2_5 | .ws2_6 | .ws2_7 => .variant

end Sys2Proof
end

