-- ==== Sys2Proof/Machine/State.lean ====
section
/-! DEFINITION. The state of the machine (10), its reset value (70 R107), and the reasons a step can stop. -/

namespace Sys2Proof.Machine

/-- Memory: the cells of BUF (10 R34), addresses strictly rising, holding only bytes that differ from what an unlisted offset reads as, 0x00 (log 13). -/
abbrev Memory := List Host.Cell

/-- ChannelState: the five int16 registers of one channel (10 R18). -/
structure ChannelState where
  /-- adaptation index -/
  index    : Word
  /-- multiplicative feedback factor (written in Wide only) -/
  factor   : Word
  /-- predictor history, two steps back (written in Wide only) -/
  prev2    : Word
  /-- one-step predictor history (written in Wide only) -/
  previous : Word
  /-- leaky integrator -/
  level    : Word
deriving DecidableEq, Repr

/-- The components (f, k, l) of the stream cursor that one channel engine holds (10 R29); the component c is the engine's place in State.engines. -/
structure Cursor where
  /-- frame -/
  f : Nat
  /-- byte position within the frame -/
  k : Nat
  /-- slot within the byte -/
  l : Slot
deriving DecidableEq, Repr

/-- A channel engine and what it owns alone (60 R105): cs[c], its cursor, the byte latch B[c] and OUT[c]. -/
structure Engine where
  cs    : ChannelState
  cur   : Cursor
  /-- B[c]; no value until the fetch at (c, f, k, 0) (10 R30, R36) -/
  latch : Option Byte
  /-- OUT[c], oldest sample first (10 R31) -/
  out   : List Word
deriving DecidableEq, Repr

/-- The command registers, latched from a DECODE command and constant while it runs (10 R14 to R16). -/
structure Bound where
  /-- MODE -/
  mode         : Mode
  /-- FRAME_COUNT, any integer (10 R15) -/
  frameCount   : Int
  /-- CHANNEL_COUNT, any integer (10 R15) -/
  channelCount : Int
  /-- BUF -/
  buf          : Memory
  /-- BUF_LEN -/
  bufLen       : Nat
deriving DecidableEq, Repr

/-- A DECODE command as the host issues it (42 R75). -/
structure Command where
  mode         : Mode
  frameCount   : Int
  channelCount : Int
  buffer       : List Byte
deriving DecidableEq, Repr

/-- STATUS (10 R32). -/
inductive Status where
  | idle
  | busy
  | done
  | error
deriving DecidableEq, Repr

/-- ERR_CODE (10 R32, 60 R96). -/
inductive ErrCode where
  | none
  | outOfRangeAccess
  | invalidParameters
deriving DecidableEq, Repr

/-- What `raise` carries: the error kind with its recorded info (60 R96). -/
inductive Error where
  /-- OutOfRangeAccess(required, BUF_LEN), by 42 R77 -/
  | bufferTooShort (required : Int) (bufLen : Nat)
  /-- OutOfRangeAccess(addr), by 20 R37 -/
  | offsetOutOfRange (addr : Int)
  /-- InvalidParameters(CHANNEL_COUNT, FRAME_COUNT), by 42 R76 -/
  | invalidParameters (channelCount frameCount : Int)
deriving DecidableEq, Repr

/-- The Result of a DECODE command (42 R75). -/
inductive Result where
  /-- Ok: one sample sequence per channel, in channel order (42 R91) -/
  | ok (outs : List (List Word))
  /-- Err: the error raised (60 R98) -/
  | err (e : Error)
deriving DecidableEq, Repr

/-- Why the machine stops with a fault. -/
inductive Fault where
  /-- A register write of a value outside int16 (00 R7, 92 D7), raised by storeInt16. Safe: the machine stops. Unreachable in a command with a conforming ROM (41 R74). -/
  | storeOutOfInt16
  /-- A reorderBytes argument outside int16 (92 D7, 93 U3), raised by sampleOf. Safe; unreachable (41 R74). -/
  | reorderOutOfInt16
  /-- A read of the command registers while no command is bound (10 R36, 70 R107), raised by every slot operation. Safe. -/
  | noCommand
  /-- A read of ChannelState while no engine has a slot operation left to perform: the ChannelState is absent (10 R36) or its channel is complete (42 R80). Raised by every slot operation. Safe. -/
  | noEngine
  /-- A read of the byte latch before a fetch gave it a value (10 R36), raised by the fetch at slots 1 and 2. Safe; unreachable in a command. -/
  | latchEmpty
deriving DecidableEq, Repr

/-- Why a step is refused. -/
inductive Refusal where
  /-- The instruction has no meaning in the model yet; raised by an arm of exec only. Safe. -/
  | notModelled (mnemonic : String)
  /-- The ROM holds an instance of TABLES that breaks 10 R27: the model refuses it (10 R27, 70 R109). Raised by step. Safe. -/
  | tablesNotConforming
deriving DecidableEq, Repr

/-- The whole state: the block's (10), the host's commands to come, and the schedule. -/
structure State where
  /-- the ROM: the TABLES instance (10 R23 to R28) -/
  rom      : Tables
  /-- STATUS (10 R32) -/
  status   : Status
  /-- ERR_CODE (10 R32) -/
  errCode  : ErrCode
  /-- MODE, FRAME_COUNT, CHANNEL_COUNT, BUF, BUF_LEN; absent when no command is bound (10 R36) -/
  cmd      : Option Bound
  /-- the channel engines in channel order, exactly CHANNEL_COUNT of them in a command (10 R18), none outside one (10 R36) -/
  engines  : List Engine
  /-- the Result that the last DECODE call returned; none before one returned and while one runs (42 R75) -/
  result   : Option Result
  /-- the host's DECODE commands still to be issued, oldest first (log 6) -/
  requests : List Command
  /-- the schedule: the channel whose engine moves at each coming slot operation (60 R105, log 5) -/
  turns    : List Nat
deriving DecidableEq, Repr

/-- Power-on with a given TABLES instance (70 R107, 10 R36): STATUS = IDLE, ERR_CODE = 0, no command bound, nothing command-scoped exists. The model takes TABLES as an argument (00 R4). -/
def State.powerOn (rom : Tables) : State where
  rom      := rom
  status   := .idle
  errCode  := .none
  cmd      := none
  engines  := []
  result   := none
  requests := []
  turns    := []

/-- The machine right after power-on reset (70 R107), with the ROM instance of log 2. -/
def State.reset : State := State.powerOn romInstance

end Sys2Proof.Machine
end

