-- ==== Sys2Proof/Machine/Ops.lean ====
section
/-! DEFINITION. The shared operations: integer primitives, memory, addresses, the cursor, the choice of the engine that moves, and the two ways a command ends (completion and the abort). -/

namespace Sys2Proof.Machine

/-! ## Integers and int16 -/

/-- v >> n, the arithmetic right shift: floor(v / 2^n) (00 R8). -/
def sar (v : Int) (n : Nat) : Int := v / 2 ^ n

/-- int16 = [-32768, 32767] (00 R7). -/
def isInt16 (v : Int) : Bool := decide (-32768 ≤ v) && decide (v ≤ 32767)

/-- The value written to a register: allowed only when it is in int16, and a fault otherwise (00 R7). -/
def storeInt16 (v : Int) : Except Fault Word :=
  if isInt16 v then .ok (BitVec.ofInt 16 v) else .error .storeOutOfInt16

/-! ## Codes -/

/-- The number of a MODE value (10 R14). -/
def modeCode : Mode → Nat
  | .narrow => 0
  | .wide => 1

/-- The number of a STATUS value (10 R32). -/
def Status.code : Status → Nat
  | .idle => 0
  | .busy => 1
  | .done => 2
  | .error => 3

/-- The number of an ERR_CODE value (10 R32, 60 R96). -/
def ErrCode.code : ErrCode → Nat
  | .none => 0
  | .outOfRangeAccess => 1
  | .invalidParameters => 2

/-- The kind of an error, as ERR_CODE records it (60 R96). -/
def Error.errCode : Error → ErrCode
  | .bufferTooShort _ _ => .outOfRangeAccess
  | .offsetOutOfRange _ => .outOfRangeAccess
  | .invalidParameters _ _ => .invalidParameters

/-! ## Memory -/

/-- What an offset of BUF that no cell lists reads as (log 13). -/
def unlistedByte : Byte := 0

/-- The byte at an offset. -/
def Memory.read : Memory → Nat → Byte
  | [], _ => unlistedByte
  | (a, b) :: m, x => if a = x then b else Memory.read m x

/-- Placing a byte, keeping the canonical form: used when the host's buffer is bound, never by a slot operation (20 R38). -/
def Memory.place : Memory → Nat → Byte → Memory
  | [], x, v => if v = unlistedByte then [] else [(x, v)]
  | (a, b) :: m, x, v =>
    if a < x then (a, b) :: Memory.place m x v
    else if a = x then (if v = unlistedByte then m else (x, v) :: m)
    else if v = unlistedByte then (a, b) :: m else (x, v) :: (a, b) :: m

/-- The bytes of a list at the offsets from `base` on. -/
def Memory.ofBytesFrom (base : Nat) : List Byte → Memory
  | [] => []
  | b :: bs => (Memory.ofBytesFrom (base + 1) bs).place base b

/-- BUF from the sequence of bytes the host supplies: byte i at offset i (10 R16). -/
def Memory.ofBytes (bs : List Byte) : Memory := Memory.ofBytesFrom 0 bs

/-- Every listed offset is at least `lo`, offsets rise strictly, and no listed byte is the unlisted one. -/
def Memory.wfFrom (lo : Nat) : Memory → Bool
  | [] => true
  | (a, b) :: m => decide (lo ≤ a) && decide (b ≠ unlistedByte) && Memory.wfFrom (a + 1) m

/-- The canonical form: equal memories are equal data. -/
def Memory.wf (m : Memory) : Bool := m.wfFrom 0

/-- MemRead(addr, 1) (20 R37): the byte of BUF at an offset in [0, BUF_LEN), OutOfRangeAccess(addr) otherwise. -/
def memRead (b : Bound) (addr : Int) : Except Error Byte :=
  if 0 ≤ addr ∧ addr < b.bufLen then .ok (Memory.read b.buf addr.toNat) else .error (.offsetOutOfRange addr)

/-! ## Constants of the mode and the read address -/

/-- bytesPerFrame(MODE) (10 R17). -/
def bytesPerFrame : Mode → Nat
  | .narrow => 3
  | .wide => 6

/-- samplesPerSlot(MODE) (10 R17). -/
def samplesPerSlot : Mode → Nat
  | .narrow => 1
  | .wide => 2

/-- laneStride(MODE), the spec's value (00 R5, 42 R81, 90 C1; log 3). -/
def laneStride : Mode → Nat
  | .narrow => 3
  | .wide => 6

/-- The read-address formula for any lane stride and channel count (42 R81). -/
def addrWith (stride channelCount c f k : Int) : Int := c * stride + f * channelCount * stride + k

/-- addr(c, f, k): where byte k of frame f of channel c is read (42 R81). -/
def addr (b : Bound) (c f k : Nat) : Int := addrWith (laneStride b.mode) b.channelCount c f k

/-- The required length CHANNEL_COUNT × FRAME_COUNT × bytesPerFrame(MODE) (42 R77). -/
def Bound.required (b : Bound) : Int := b.channelCount * b.frameCount * bytesPerFrame b.mode

/-! ## The cursor -/

/-- The number of a slot. -/
def slotNumber : Slot → Nat
  | .s0 => 0
  | .s1 => 1
  | .s2 => 2

/-- The cursor's advance after a slot operation, in the loop order of 42 R80. -/
def Cursor.advance (bpf : Nat) (u : Cursor) : Cursor :=
  match u.l with
  | .s0 => { u with l := .s1 }
  | .s1 => { u with l := .s2 }
  | .s2 => if u.k + 1 = bpf then ⟨u.f + 1, 0, .s0⟩ else ⟨u.f, u.k + 1, .s0⟩

/-- Channel c is complete when its frame component has reached FRAME_COUNT (42 R80; log 16). -/
def Engine.complete (b : Bound) (e : Engine) : Bool := decide (b.frameCount ≤ e.cur.f)

/-! ## Which engine moves -/

/-- The first engine, from number c on, that is not complete. -/
def firstActive (b : Bound) (c : Nat) : List Engine → Option (Nat × Engine)
  | [] => none
  | e :: es => if e.complete b then firstActive b (c + 1) es else some (c, e)

/-- The engine that the schedule names next, if it exists and is not complete. -/
def scheduledEngine (b : Bound) (engines : List Engine) : List Nat → Option (Nat × Engine)
  | [] => none
  | c :: _ =>
    match engines[c]? with
    | none => none
    | some e => if e.complete b then none else some (c, e)

/-- The engine that performs the next slot operation: the one the schedule names, or else the first in channel order that is not complete (60 R105; log 5). None when every channel is complete. -/
def State.selectedIn (s : State) (b : Bound) : Option (Nat × Engine) :=
  match scheduledEngine b s.engines s.turns with
  | some p => some p
  | none => firstActive b 0 s.engines

/-- The engine that performs the next slot operation of the bound command; none when no command is bound or every channel is complete. -/
def State.selected (s : State) : Option (Nat × Engine) :=
  match s.cmd with
  | none => none
  | some b => s.selectedIn b

/-- Replacing engine c, and no other (60 R105). -/
def State.setEngine (s : State) (c : Nat) (e : Engine) : State := { s with engines := s.engines.set c e }

/-- The end of an engine's move: engine c becomes e, and the move's turn is used up. -/
def State.commit (s : State) (c : Nat) (e : Engine) : State :=
  { s with engines := s.engines.set c e, turns := s.turns.tail }

/-! ## The ends of a command -/

/-- raise E(info): the abort (60 R98). STATUS and ERR_CODE are written, everything command-scoped is discarded, and Err(E) is returned. No state is saved, no handler runs, no vector is taken; there is no return from it (60 R103): the host goes on with a new DECODE. -/
def State.raise (s : State) (e : Error) : State :=
  { s with status := .error, errCode := e.errCode, cmd := none, engines := [], result := some (.err e) }

/-- Completion (42 R91): STATUS = DONE, ERR_CODE = 0, Ok of the outputs in channel order; ChannelState, cursors and latches are discarded. -/
def State.finish (s : State) : State :=
  { s with status := .done, errCode := .none, cmd := none, engines := [], result := some (.ok (s.engines.map (·.out))) }

end Sys2Proof.Machine
end

