-- ==== Sys2Proof/Machine/Operands.lean ====
section
/-! DEFINITION. What a codedValue selects (30 R54; 40 R59 to R61): the row, the branch, the column, and the step value of a branch. -/

namespace Sys2Proof.Machine

/-- The row selector (index & 0x7F0) >> 4, bits [10:4] of index (40 R59). -/
def rowOf (index : Word) : Fin 128 := ⟨((index &&& 0x7F0#16) >>> 4).toNat, by
  have h : (index &&& 0x7F0#16).toNat ≤ 0x7F0 := by
    rw [BitVec.toNat_and]; exact Nat.and_le_right
  rw [BitVec.toNat_ushiftRight, Nat.shiftRight_eq_div_pow]
  omega⟩

/-- The two branches of the step quantizer (30 R54). -/
inductive Branch where
  | magnitude
  | negative
deriving DecidableEq, Repr

/-- The branch of codedValue v at stride s (30 R54). -/
def branchOf (s : Nat) (v : Fin (2 * s)) : Branch := if v.val < s then .magnitude else .negative

/-- The column of codedValue v at stride s: v, or 2s - v - 1 on the negative branch (30 R54). -/
def columnOf (s : Nat) (v : Fin (2 * s)) : Fin s :=
  if h : v.val < s then ⟨v.val, h⟩ else ⟨2 * s - v.val - 1, by have := v.isLt; omega⟩

/-- The step of a branch from its table entry: T on the magnitude branch (40 R60), -1 - T on the negative one (40 R61). -/
def branchStep : Branch → Word → Word
  | .magnitude, t => t
  | .negative, t => BitVec.ofInt 16 (-1 - t.toInt)

end Sys2Proof.Machine
end

