-- ==== Sys2Proof/Machine/StepDecoder.lean ====
section
/-! DEFINITION. StepDecoder (40): the step quantizer with index advancement. -/

namespace Sys2Proof.Machine

/-- The next index before it is stored: index + delta - (index >> 5), clamped to 0 from below and not from above (40 R62). -/
def nextIndex (index delta : Int) : Int :=
  let n := index + delta - sar index 5
  if n < 0 then 0 else n

/-- Index advancement by a delta entry (40 R62); writes index only. -/
def advanceIndex (cs : ChannelState) (delta : Word) : Except Fault ChannelState :=
  (storeInt16 (nextIndex cs.index.toInt delta.toInt)).map fun w => { cs with index := w }

/-- The step quantizer with its branch, column j and delta index d given (30 R54). The step is computed from the old index (40 R63). -/
def stepWith {s : Nat} (t : Family s) (br : Branch) (j : Fin s) (d : Fin (2 * s)) (cs : ChannelState) :
    Except Fault (ChannelState × Word) :=
  (advanceIndex cs t.deltas[d.val]).map fun cs' => (cs', branchStep br t.steps[(rowOf cs.index).val][j.val])

/-- decodeStep(cs, v, t) (40 R63): the step of codedValue v, and index advanced by D[v]. -/
def decodeStep {s : Nat} (t : Family s) (cs : ChannelState) (v : Fin (2 * s)) : Except Fault (ChannelState × Word) :=
  stepWith t (branchOf s v) (columnOf s v) v cs

end Sys2Proof.Machine
end

