-- ==== Sys2Proof/Machine/Flags.lean ====
section
/-! DEFINITION. The block has no flags, condition codes or predicates (10 R33). The one condition an operation computes, the sign agreement of the Wide synthesizer, is used inside it and not retained. -/

namespace Sys2Proof.Machine

/-- (x xor y) >= 0: the same sign bit, a zero counting as non-negative (00 R9, 41 R69). -/
def signsAgree (x y : Word) : Bool := decide (0 ≤ (x ^^^ y).toInt)

end Sys2Proof.Machine
end

