-- ==== Sys2Proof/Machine/Synthesizer.lean ====
section
/-! DEFINITION. SampleSynthesizer (41): the helpers, the Narrow synthesizer and the Wide synthesizer. -/

namespace Sys2Proof.Machine

/-- asymmetricClip (41 R66): 32767 above 32767, -32767 below -32768, else unchanged. -/
def asymmetricClip (n : Int) : Int :=
  if n > 32767 then 32767 else if n < -32768 then -32767 else n

/-- reorderBytes (41 R67): (hi << 8) | hi, with hi the high byte of x. -/
def reorderBytes (x : Word) : Word :=
  let hi : BitVec 8 := x.extractLsb' 8 8
  (hi.setWidth 16 <<< 8) ||| hi.setWidth 16

/-- reorderBytes of an exact integer: an argument outside int16 is a fault (92 D7). -/
def sampleOf (x : Int) : Except Fault Word :=
  if isInt16 x then .ok (reorderBytes (BitVec.ofInt 16 x)) else .error .reorderOutOfInt16

/-- The clipped sum of a step and the level (41 R68, R70). -/
def clippedSum (cs : ChannelState) (step : Word) : Int := asymmetricClip (step.toInt + cs.level.toInt)

/-- The leaky integrator's new level, current - (current >> 3) (41 R68). -/
def leak (current : Int) : Int := current - sar current 3

/-- narrowSynth (41 R68): one sample; writes level only. -/
def narrowSynth (cs : ChannelState) (step : Word) : Except Fault (ChannelState × List Word) := do
  let current := clippedSum cs step
  let level ← storeInt16 (leak current)
  let sample ← sampleOf current
  return ({ cs with level := level }, [sample])

/-- Wide step 1 (41 R69): the adapted factor, before it is stored. -/
def adaptedFactor (cs : ChannelState) (step : Word) : Int :=
  if signsAgree cs.previous step then min (cs.factor.toInt + 506) 32767 else max (cs.factor.toInt - 314) (-32767)

/-- wideSynth (41 R73): two samples; writes factor, level, prev2 and previous. -/
def wideSynth (cs : ChannelState) (step : Word) : Except Fault (ChannelState × List Word) := do
  let newFactor := adaptedFactor cs step
  let factor ← storeInt16 newFactor
  let current := clippedSum cs step
  let level ← storeInt16 (sar (current * newFactor) 15)
  let half := sar current 1
  let k := sar (cs.prev2.toInt - half) 2
  let sample1 ← sampleOf (cs.previous.toInt + cs.prev2.toInt - k)
  let sample2 ← sampleOf (cs.previous.toInt + half + k)
  let previous ← storeInt16 half
  return ({ cs with factor := factor, level := level, prev2 := cs.previous, previous := previous }, [sample1, sample2])

/-- The synthesizer of a mode (42 R83). -/
def synthesize : Mode → ChannelState → Word → Except Fault (ChannelState × List Word)
  | .narrow, cs, step => narrowSynth cs step
  | .wide, cs, step => wideSynth cs step

end Sys2Proof.Machine
end

