-- ==== Sys2Proof/Machine/SlotOp.lean ====
section
/-! DEFINITION. The generic slot operation (42 R83) on one engine, and running an operation on the engine that moves. -/

namespace Sys2Proof.Machine

/-- The second half of a slot operation (42 R83): the synthesizer on the decoded step, the append to OUT[c] (42 R90), the cursor's advance (42 R80). -/
def emit (b : Bound) (m : Mode) (e : Engine) (decoded : ChannelState × Word) : Except Fault Engine := do
  let (cs, samples) ← synthesize m decoded.1 decoded.2
  return { e with cs := cs, out := e.out ++ samples, cur := e.cur.advance (bytesPerFrame b.mode) }

/-- slotOp(mode, l, c) with codedValue v in a table family (42 R83). decodeStep completes before the synthesizer starts. -/
def slotOp {s : Nat} (t : Family s) (b : Bound) (m : Mode) (v : Fin (2 * s)) (e : Engine) : Except Fault Engine := do
  let decoded ← decodeStep t e.cs v
  emit b m e decoded

/-- A slot operation given by a variant row: its branch, column and delta index (30 R54; opcode_table.json). -/
def variantOp {s : Nat} (t : Family s) (b : Bound) (m : Mode) (br : Branch) (j : Fin s) (d : Fin (2 * s)) (e : Engine) :
    Except Fault Engine := do
  let decoded ← stepWith t br j d e.cs
  emit b m e decoded

/-- Running an operation as one move of the selected engine of the bound command (60 R105). Without a command or an engine there is nothing to read (10 R36). -/
def runOnSelected (op : Bound → Engine → Except Fault Engine) (s : State) : Host.Outcome State Fault Refusal :=
  match s.cmd with
  | none => .fault .noCommand
  | some b =>
    match s.selectedIn b with
    | none => .fault .noEngine
    | some (c, e) =>
      match op b e with
      | .error f => .fault f
      | .ok e' => .next (s.commit c e')

end Sys2Proof.Machine
end

