-- ==== Sys2Proof/Machine/Bytes.lean ====
section
/-! DEFINITION. The byte formats NBYTE and WBYTE (30 R50, R51): the three slot operations of one coded byte, in slot order, as one move of the engine (log 10). -/

namespace Sys2Proof.Machine

/-- The three slot operations of a coded byte with slot values a, b, c (42 R80, R83): slots 0 and 2 in the wide-stride family, slot 1 in the narrow-stride one (30 R52). -/
def byteOps (rom : Tables) (bd : Bound) (m : Mode) (a : BitVec 3) (b : BitVec 2) (c : BitVec 3) (e : Engine) :
    Except Fault Engine := do
  let e ← slotOp rom.wideStride bd m a.toFin e
  let e ← slotOp rom.narrowStride bd m b.toFin e
  slotOp rom.wideStride bd m c.toFin e

/-- NBYTE: a coded byte in Narrow (30 R50). -/
def execNbyte (a : BitVec 3) (b : BitVec 2) (c : BitVec 3) (s : State) : Host.Outcome State Fault Refusal :=
  runOnSelected (fun bd e => byteOps s.rom bd .narrow a b c e) s

/-- WBYTE: a coded byte in Wide (30 R51). -/
def execWbyte (a : BitVec 3) (b : BitVec 2) (c : BitVec 3) (s : State) : Host.Outcome State Fault Refusal :=
  runOnSelected (fun bd e => byteOps s.rom bd .wide a b c e) s

end Sys2Proof.Machine
end

