-- ==== Sys2Proof/Machine/NarrowSlots.lean ====
section
/-! DEFINITION. The Narrow slot operations N.S0, N.S1, N.S2 (42 R84 to R86) and their 20 variants, each variant with the branch, column and delta index of its row of spec/opcode_table.json. -/

namespace Sys2Proof.Machine

/-- N.S0 v (42 R84). -/
def execNs0 (v : BitVec 3) (s : State) : Host.Outcome State Fault Refusal :=
  runOnSelected (fun b e => slotOp s.rom.wideStride b .narrow v.toFin e) s

/-- N.S0 0: step WST[row][0], delta WDT[0] (40 R60). -/
def execNs0_0 (s : State) : Host.Outcome State Fault Refusal :=
  runOnSelected (fun b e => variantOp s.rom.wideStride b .narrow .magnitude 0 0 e) s

/-- N.S0 1: step WST[row][1], delta WDT[1] (40 R60). -/
def execNs0_1 (s : State) : Host.Outcome State Fault Refusal :=
  runOnSelected (fun b e => variantOp s.rom.wideStride b .narrow .magnitude 1 1 e) s

/-- N.S0 2: step WST[row][2], delta WDT[2] (40 R60). -/
def execNs0_2 (s : State) : Host.Outcome State Fault Refusal :=
  runOnSelected (fun b e => variantOp s.rom.wideStride b .narrow .magnitude 2 2 e) s

/-- N.S0 3: step WST[row][3], delta WDT[3] (40 R60). -/
def execNs0_3 (s : State) : Host.Outcome State Fault Refusal :=
  runOnSelected (fun b e => variantOp s.rom.wideStride b .narrow .magnitude 3 3 e) s

/-- N.S0 4: step -1 - WST[row][3], delta WDT[4] (40 R61). -/
def execNs0_4 (s : State) : Host.Outcome State Fault Refusal :=
  runOnSelected (fun b e => variantOp s.rom.wideStride b .narrow .negative 3 4 e) s

/-- N.S0 5: step -1 - WST[row][2], delta WDT[5] (40 R61). -/
def execNs0_5 (s : State) : Host.Outcome State Fault Refusal :=
  runOnSelected (fun b e => variantOp s.rom.wideStride b .narrow .negative 2 5 e) s

/-- N.S0 6: step -1 - WST[row][1], delta WDT[6] (40 R61). -/
def execNs0_6 (s : State) : Host.Outcome State Fault Refusal :=
  runOnSelected (fun b e => variantOp s.rom.wideStride b .narrow .negative 1 6 e) s

/-- N.S0 7: step -1 - WST[row][0], delta WDT[7] (40 R61). -/
def execNs0_7 (s : State) : Host.Outcome State Fault Refusal :=
  runOnSelected (fun b e => variantOp s.rom.wideStride b .narrow .negative 0 7 e) s

/-- N.S1 v (42 R85). -/
def execNs1 (v : BitVec 2) (s : State) : Host.Outcome State Fault Refusal :=
  runOnSelected (fun b e => slotOp s.rom.narrowStride b .narrow v.toFin e) s

/-- N.S1 0: step NST[row][0], delta NDT[0] (40 R60). -/
def execNs1_0 (s : State) : Host.Outcome State Fault Refusal :=
  runOnSelected (fun b e => variantOp s.rom.narrowStride b .narrow .magnitude 0 0 e) s

/-- N.S1 1: step NST[row][1], delta NDT[1] (40 R60). -/
def execNs1_1 (s : State) : Host.Outcome State Fault Refusal :=
  runOnSelected (fun b e => variantOp s.rom.narrowStride b .narrow .magnitude 1 1 e) s

/-- N.S1 2: step -1 - NST[row][1], delta NDT[2] (40 R61). -/
def execNs1_2 (s : State) : Host.Outcome State Fault Refusal :=
  runOnSelected (fun b e => variantOp s.rom.narrowStride b .narrow .negative 1 2 e) s

/-- N.S1 3: step -1 - NST[row][0], delta NDT[3] (40 R61). -/
def execNs1_3 (s : State) : Host.Outcome State Fault Refusal :=
  runOnSelected (fun b e => variantOp s.rom.narrowStride b .narrow .negative 0 3 e) s

/-- N.S2 v (42 R86). -/
def execNs2 (v : BitVec 3) (s : State) : Host.Outcome State Fault Refusal :=
  runOnSelected (fun b e => slotOp s.rom.wideStride b .narrow v.toFin e) s

/-- N.S2 0: step WST[row][0], delta WDT[0] (40 R60). -/
def execNs2_0 (s : State) : Host.Outcome State Fault Refusal :=
  runOnSelected (fun b e => variantOp s.rom.wideStride b .narrow .magnitude 0 0 e) s

/-- N.S2 1: step WST[row][1], delta WDT[1] (40 R60). -/
def execNs2_1 (s : State) : Host.Outcome State Fault Refusal :=
  runOnSelected (fun b e => variantOp s.rom.wideStride b .narrow .magnitude 1 1 e) s

/-- N.S2 2: step WST[row][2], delta WDT[2] (40 R60). -/
def execNs2_2 (s : State) : Host.Outcome State Fault Refusal :=
  runOnSelected (fun b e => variantOp s.rom.wideStride b .narrow .magnitude 2 2 e) s

/-- N.S2 3: step WST[row][3], delta WDT[3] (40 R60). -/
def execNs2_3 (s : State) : Host.Outcome State Fault Refusal :=
  runOnSelected (fun b e => variantOp s.rom.wideStride b .narrow .magnitude 3 3 e) s

/-- N.S2 4: step -1 - WST[row][3], delta WDT[4] (40 R61). -/
def execNs2_4 (s : State) : Host.Outcome State Fault Refusal :=
  runOnSelected (fun b e => variantOp s.rom.wideStride b .narrow .negative 3 4 e) s

/-- N.S2 5: step -1 - WST[row][2], delta WDT[5] (40 R61). -/
def execNs2_5 (s : State) : Host.Outcome State Fault Refusal :=
  runOnSelected (fun b e => variantOp s.rom.wideStride b .narrow .negative 2 5 e) s

/-- N.S2 6: step -1 - WST[row][1], delta WDT[6] (40 R61). -/
def execNs2_6 (s : State) : Host.Outcome State Fault Refusal :=
  runOnSelected (fun b e => variantOp s.rom.wideStride b .narrow .negative 1 6 e) s

/-- N.S2 7: step -1 - WST[row][0], delta WDT[7] (40 R61). -/
def execNs2_7 (s : State) : Host.Outcome State Fault Refusal :=
  runOnSelected (fun b e => variantOp s.rom.wideStride b .narrow .negative 0 7 e) s

end Sys2Proof.Machine
end

