-- ==== Sys2Proof/Machine/WideSlots.lean ====
section
/-! DEFINITION. The Wide slot operations W.S0, W.S1, W.S2 (42 R87 to R89) and their 20 variants, each variant with the branch, column and delta index of its row of spec/opcode_table.json. -/

namespace Sys2Proof.Machine

/-- W.S0 v (42 R87). -/
def execWs0 (v : BitVec 3) (s : State) : Host.Outcome State Fault Refusal :=
  runOnSelected (fun b e => slotOp s.rom.wideStride b .wide v.toFin e) s

/-- W.S0 0: step WST[row][0], delta WDT[0] (40 R60). -/
def execWs0_0 (s : State) : Host.Outcome State Fault Refusal :=
  runOnSelected (fun b e => variantOp s.rom.wideStride b .wide .magnitude 0 0 e) s

/-- W.S0 1: step WST[row][1], delta WDT[1] (40 R60). -/
def execWs0_1 (s : State) : Host.Outcome State Fault Refusal :=
  runOnSelected (fun b e => variantOp s.rom.wideStride b .wide .magnitude 1 1 e) s

/-- W.S0 2: step WST[row][2], delta WDT[2] (40 R60). -/
def execWs0_2 (s : State) : Host.Outcome State Fault Refusal :=
  runOnSelected (fun b e => variantOp s.rom.wideStride b .wide .magnitude 2 2 e) s

/-- W.S0 3: step WST[row][3], delta WDT[3] (40 R60). -/
def execWs0_3 (s : State) : Host.Outcome State Fault Refusal :=
  runOnSelected (fun b e => variantOp s.rom.wideStride b .wide .magnitude 3 3 e) s

/-- W.S0 4: step -1 - WST[row][3], delta WDT[4] (40 R61). -/
def execWs0_4 (s : State) : Host.Outcome State Fault Refusal :=
  runOnSelected (fun b e => variantOp s.rom.wideStride b .wide .negative 3 4 e) s

/-- W.S0 5: step -1 - WST[row][2], delta WDT[5] (40 R61). -/
def execWs0_5 (s : State) : Host.Outcome State Fault Refusal :=
  runOnSelected (fun b e => variantOp s.rom.wideStride b .wide .negative 2 5 e) s

/-- W.S0 6: step -1 - WST[row][1], delta WDT[6] (40 R61). -/
def execWs0_6 (s : State) : Host.Outcome State Fault Refusal :=
  runOnSelected (fun b e => variantOp s.rom.wideStride b .wide .negative 1 6 e) s

/-- W.S0 7: step -1 - WST[row][0], delta WDT[7] (40 R61). -/
def execWs0_7 (s : State) : Host.Outcome State Fault Refusal :=
  runOnSelected (fun b e => variantOp s.rom.wideStride b .wide .negative 0 7 e) s

/-- W.S1 v (42 R88). -/
def execWs1 (v : BitVec 2) (s : State) : Host.Outcome State Fault Refusal :=
  runOnSelected (fun b e => slotOp s.rom.narrowStride b .wide v.toFin e) s

/-- W.S1 0: step NST[row][0], delta NDT[0] (40 R60). -/
def execWs1_0 (s : State) : Host.Outcome State Fault Refusal :=
  runOnSelected (fun b e => variantOp s.rom.narrowStride b .wide .magnitude 0 0 e) s

/-- W.S1 1: step NST[row][1], delta NDT[1] (40 R60). -/
def execWs1_1 (s : State) : Host.Outcome State Fault Refusal :=
  runOnSelected (fun b e => variantOp s.rom.narrowStride b .wide .magnitude 1 1 e) s

/-- W.S1 2: step -1 - NST[row][1], delta NDT[2] (40 R61). -/
def execWs1_2 (s : State) : Host.Outcome State Fault Refusal :=
  runOnSelected (fun b e => variantOp s.rom.narrowStride b .wide .negative 1 2 e) s

/-- W.S1 3: step -1 - NST[row][0], delta NDT[3] (40 R61). -/
def execWs1_3 (s : State) : Host.Outcome State Fault Refusal :=
  runOnSelected (fun b e => variantOp s.rom.narrowStride b .wide .negative 0 3 e) s

/-- W.S2 v (42 R89). -/
def execWs2 (v : BitVec 3) (s : State) : Host.Outcome State Fault Refusal :=
  runOnSelected (fun b e => slotOp s.rom.wideStride b .wide v.toFin e) s

/-- W.S2 0: step WST[row][0], delta WDT[0] (40 R60). -/
def execWs2_0 (s : State) : Host.Outcome State Fault Refusal :=
  runOnSelected (fun b e => variantOp s.rom.wideStride b .wide .magnitude 0 0 e) s

/-- W.S2 1: step WST[row][1], delta WDT[1] (40 R60). -/
def execWs2_1 (s : State) : Host.Outcome State Fault Refusal :=
  runOnSelected (fun b e => variantOp s.rom.wideStride b .wide .magnitude 1 1 e) s

/-- W.S2 2: step WST[row][2], delta WDT[2] (40 R60). -/
def execWs2_2 (s : State) : Host.Outcome State Fault Refusal :=
  runOnSelected (fun b e => variantOp s.rom.wideStride b .wide .magnitude 2 2 e) s

/-- W.S2 3: step WST[row][3], delta WDT[3] (40 R60). -/
def execWs2_3 (s : State) : Host.Outcome State Fault Refusal :=
  runOnSelected (fun b e => variantOp s.rom.wideStride b .wide .magnitude 3 3 e) s

/-- W.S2 4: step -1 - WST[row][3], delta WDT[4] (40 R61). -/
def execWs2_4 (s : State) : Host.Outcome State Fault Refusal :=
  runOnSelected (fun b e => variantOp s.rom.wideStride b .wide .negative 3 4 e) s

/-- W.S2 5: step -1 - WST[row][2], delta WDT[5] (40 R61). -/
def execWs2_5 (s : State) : Host.Outcome State Fault Refusal :=
  runOnSelected (fun b e => variantOp s.rom.wideStride b .wide .negative 2 5 e) s

/-- W.S2 6: step -1 - WST[row][1], delta WDT[6] (40 R61). -/
def execWs2_6 (s : State) : Host.Outcome State Fault Refusal :=
  runOnSelected (fun b e => variantOp s.rom.wideStride b .wide .negative 1 6 e) s

/-- W.S2 7: step -1 - WST[row][0], delta WDT[7] (40 R61). -/
def execWs2_7 (s : State) : Host.Outcome State Fault Refusal :=
  runOnSelected (fun b e => variantOp s.rom.wideStride b .wide .negative 0 7 e) s

end Sys2Proof.Machine
end

