-- ==== Sys2Proof/Machine/Dispatch.lean ====
section
/-! DEFINITION. One arm per instruction. -/

namespace Sys2Proof.Machine

def exec (i : Instr) (s : State) : Host.Outcome State Fault Refusal :=
  match i with
  -- the byte formats (30 R50, R51)
  | .nbyte a b c => Sys2Proof.Machine.execNbyte a b c s
  | .wbyte a b c => Sys2Proof.Machine.execWbyte a b c s
  -- the slot operations (42 R84 to R89)
  | .ns0 v => Sys2Proof.Machine.execNs0 v s
  | .ns1 v => Sys2Proof.Machine.execNs1 v s
  | .ns2 v => Sys2Proof.Machine.execNs2 v s
  | .ws0 v => Sys2Proof.Machine.execWs0 v s
  | .ws1 v => Sys2Proof.Machine.execWs1 v s
  | .ws2 v => Sys2Proof.Machine.execWs2 v s
  -- the variants (30 R54; 40 R60, R61)
  | .ns0_0 => Sys2Proof.Machine.execNs0_0 s
  | .ns0_1 => Sys2Proof.Machine.execNs0_1 s
  | .ns0_2 => Sys2Proof.Machine.execNs0_2 s
  | .ns0_3 => Sys2Proof.Machine.execNs0_3 s
  | .ns0_4 => Sys2Proof.Machine.execNs0_4 s
  | .ns0_5 => Sys2Proof.Machine.execNs0_5 s
  | .ns0_6 => Sys2Proof.Machine.execNs0_6 s
  | .ns0_7 => Sys2Proof.Machine.execNs0_7 s
  | .ns1_0 => Sys2Proof.Machine.execNs1_0 s
  | .ns1_1 => Sys2Proof.Machine.execNs1_1 s
  | .ns1_2 => Sys2Proof.Machine.execNs1_2 s
  | .ns1_3 => Sys2Proof.Machine.execNs1_3 s
  | .ns2_0 => Sys2Proof.Machine.execNs2_0 s
  | .ns2_1 => Sys2Proof.Machine.execNs2_1 s
  | .ns2_2 => Sys2Proof.Machine.execNs2_2 s
  | .ns2_3 => Sys2Proof.Machine.execNs2_3 s
  | .ns2_4 => Sys2Proof.Machine.execNs2_4 s
  | .ns2_5 => Sys2Proof.Machine.execNs2_5 s
  | .ns2_6 => Sys2Proof.Machine.execNs2_6 s
  | .ns2_7 => Sys2Proof.Machine.execNs2_7 s
  | .ws0_0 => Sys2Proof.Machine.execWs0_0 s
  | .ws0_1 => Sys2Proof.Machine.execWs0_1 s
  | .ws0_2 => Sys2Proof.Machine.execWs0_2 s
  | .ws0_3 => Sys2Proof.Machine.execWs0_3 s
  | .ws0_4 => Sys2Proof.Machine.execWs0_4 s
  | .ws0_5 => Sys2Proof.Machine.execWs0_5 s
  | .ws0_6 => Sys2Proof.Machine.execWs0_6 s
  | .ws0_7 => Sys2Proof.Machine.execWs0_7 s
  | .ws1_0 => Sys2Proof.Machine.execWs1_0 s
  | .ws1_1 => Sys2Proof.Machine.execWs1_1 s
  | .ws1_2 => Sys2Proof.Machine.execWs1_2 s
  | .ws1_3 => Sys2Proof.Machine.execWs1_3 s
  | .ws2_0 => Sys2Proof.Machine.execWs2_0 s
  | .ws2_1 => Sys2Proof.Machine.execWs2_1 s
  | .ws2_2 => Sys2Proof.Machine.execWs2_2 s
  | .ws2_3 => Sys2Proof.Machine.execWs2_3 s
  | .ws2_4 => Sys2Proof.Machine.execWs2_4 s
  | .ws2_5 => Sys2Proof.Machine.execWs2_5 s
  | .ws2_6 => Sys2Proof.Machine.execWs2_6 s
  | .ws2_7 => Sys2Proof.Machine.execWs2_7 s

end Sys2Proof.Machine
end

