-- ==== Sys2Proof/WellFormed.lean ====
section
/-! DEFINITION. Well-formedness. An operand's range is in its type (codedValue in [0, 2s-1], 30 R53); what remains to check is that an instruction stands where MODE and the slot position select it (30 R56, 42 R83). -/

namespace Sys2Proof

/-- What selects an operation: MODE and the slot position of the cursor (30, introduction; 30 R56). -/
structure Selection where
  mode : Mode
  slot : Slot
deriving DecidableEq, Repr

/-- Check 1: the instruction belongs to the selected mode (30 R56). -/
def Instr.modeOk (sel : Selection) (i : Instr) : Bool := decide (i.mode = sel.mode)

/-- Check 2: the instruction stands at the selected slot; a byte format begins at slot 0 (30 R50, R51, R56). -/
def Instr.slotOk (sel : Selection) (i : Instr) : Bool := decide (i.slot = sel.slot)

/-- An instruction is well-formed at a selection when both checks pass. -/
def Instr.wellFormed (sel : Selection) (i : Instr) : Bool := i.modeOk sel && i.slotOk sel

/-- The one selection at which an instruction is well-formed. -/
def Instr.selection (i : Instr) : Selection := ⟨i.mode, i.slot⟩

end Sys2Proof
end

