-- ==== Sys2Proof/Decode.lean ====
section
/-! DEFINITION. Decoding coded bytes (30 R49 to R57) and, after it, encoding instructions. The decoder reads the fields of 30 R50, R51 and R53; the encoder places an instruction's bits by the masks of spec/opcode_table.json. -/

namespace Sys2Proof

/-- TOP = b[7:5] (30 R49). -/
def topField (b : Byte) : BitVec 3 := b.extractLsb' 5 3

/-- MID = b[4:3] (30 R49). -/
def midField (b : Byte) : BitVec 2 := b.extractLsb' 3 2

/-- LOW = b[2:0] (30 R49). -/
def lowField (b : Byte) : BitVec 3 := b.extractLsb' 0 3

/-- The 3-bit field that is slot 0: LOW in Narrow, TOP in Wide (30 R50, R51, R53). -/
def slot0Field : Mode → Byte → BitVec 3
  | .narrow, b => lowField b
  | .wide, b => topField b

/-- The 3-bit field that is slot 2: TOP in Narrow, LOW in Wide (30 R50, R51, R53). -/
def slot2Field : Mode → Byte → BitVec 3
  | .narrow, b => topField b
  | .wide, b => lowField b

/-- Why bytes do not decode. No byte value is illegal (30 R57): only the absence of a byte, or a byte format asked for inside a byte, is rejected. -/
inductive Reject where
  /-- there is no byte to decode -/
  | noByte
  /-- a byte format stands at slot 0 only (30 R49) -/
  | notAtByteStart
deriving DecidableEq, Repr

/-- The variant row of N.S0 for a codedValue (opcode_table.json; 30 R54). -/
def ns0Variant (v : BitVec 3) : Instr :=
  match v.toNat with
  | 0 => .ns0_0
  | 1 => .ns0_1
  | 2 => .ns0_2
  | 3 => .ns0_3
  | 4 => .ns0_4
  | 5 => .ns0_5
  | 6 => .ns0_6
  | _ => .ns0_7

/-- The variant row of N.S1 for a codedValue (opcode_table.json; 30 R54). -/
def ns1Variant (v : BitVec 2) : Instr :=
  match v.toNat with
  | 0 => .ns1_0
  | 1 => .ns1_1
  | 2 => .ns1_2
  | _ => .ns1_3

/-- The variant row of N.S2 for a codedValue (opcode_table.json; 30 R54). -/
def ns2Variant (v : BitVec 3) : Instr :=
  match v.toNat with
  | 0 => .ns2_0
  | 1 => .ns2_1
  | 2 => .ns2_2
  | 3 => .ns2_3
  | 4 => .ns2_4
  | 5 => .ns2_5
  | 6 => .ns2_6
  | _ => .ns2_7

/-- The variant row of W.S0 for a codedValue (opcode_table.json; 30 R54). -/
def ws0Variant (v : BitVec 3) : Instr :=
  match v.toNat with
  | 0 => .ws0_0
  | 1 => .ws0_1
  | 2 => .ws0_2
  | 3 => .ws0_3
  | 4 => .ws0_4
  | 5 => .ws0_5
  | 6 => .ws0_6
  | _ => .ws0_7

/-- The variant row of W.S1 for a codedValue (opcode_table.json; 30 R54). -/
def ws1Variant (v : BitVec 2) : Instr :=
  match v.toNat with
  | 0 => .ws1_0
  | 1 => .ws1_1
  | 2 => .ws1_2
  | _ => .ws1_3

/-- The variant row of W.S2 for a codedValue (opcode_table.json; 30 R54). -/
def ws2Variant (v : BitVec 3) : Instr :=
  match v.toNat with
  | 0 => .ws2_0
  | 1 => .ws2_1
  | 2 => .ws2_2
  | 3 => .ws2_3
  | 4 => .ws2_4
  | 5 => .ws2_5
  | 6 => .ws2_6
  | _ => .ws2_7

/-- The variant that a byte means at a selection: the codedValue of the selected slot, zero-extended (30 R53), picks the row. Total on all 256 bytes (30 R57). -/
def decodeVariant (sel : Selection) (b : Byte) : Instr :=
  match sel.mode, sel.slot with
  | .narrow, .s0 => ns0Variant (slot0Field .narrow b)
  | .narrow, .s1 => ns1Variant (midField b)
  | .narrow, .s2 => ns2Variant (slot2Field .narrow b)
  | .wide, .s0 => ws0Variant (slot0Field .wide b)
  | .wide, .s1 => ws1Variant (midField b)
  | .wide, .s2 => ws2Variant (slot2Field .wide b)

/-- The slot operation with its operand that a byte means at a selection (42 R84 to R89; 30 R53). -/
def decodeSlotOperation (sel : Selection) (b : Byte) : Instr :=
  match sel.mode, sel.slot with
  | .narrow, .s0 => .ns0 (slot0Field .narrow b)
  | .narrow, .s1 => .ns1 (midField b)
  | .narrow, .s2 => .ns2 (slot2Field .narrow b)
  | .wide, .s0 => .ws0 (slot0Field .wide b)
  | .wide, .s1 => .ws1 (midField b)
  | .wide, .s2 => .ws2 (slot2Field .wide b)

/-- The byte format that a whole byte means in a mode (30 R50, R51). -/
def decodeByteFormat (m : Mode) (b : Byte) : Instr :=
  match m with
  | .narrow => .nbyte (slot0Field .narrow b) (midField b) (slot2Field .narrow b)
  | .wide => .wbyte (slot0Field .wide b) (midField b) (slot2Field .wide b)

/-- Decoding one byte as a row of the asked kind. -/
def decodeByte (k : RowKind) (sel : Selection) (b : Byte) : Except Reject Instr :=
  match k with
  | .variant => .ok (decodeVariant sel b)
  | .slotOperation => .ok (decodeSlotOperation sel b)
  | .byteFormat =>
    match sel.slot with
    | .s0 => .ok (decodeByteFormat sel.mode b)
    | .s1 | .s2 => .error .notAtByteStart

/-- Decoding the first coded byte of a list of bytes; every coded byte is exactly one byte long (30 R49), so the rest follows it. -/
def decode (k : RowKind) (sel : Selection) (bytes : List Byte) : Except Reject (Instr × List Byte) :=
  match bytes with
  | [] => .error .noByte
  | b :: rest => (decodeByte k sel b).map fun i => (i, rest)

/-- The bits of a coded byte that an instruction fixes (its operand's field included): every bit of `value` lies under `mask`. -/
structure FieldBits where
  mask  : Byte
  value : Byte
deriving DecidableEq, Repr

/-- A byte from its TOP, MID and LOW fields: the expansion (top << 5) | (mid << 3) | low of 30 R58. -/
def assembleByte (top : BitVec 3) (mid : BitVec 2) (low : BitVec 3) : Byte :=
  (top.setWidth 8 <<< 5) ||| (mid.setWidth 8 <<< 3) ||| low.setWidth 8

/-- The bits an instruction fixes: for the variants the mask and match of spec/opcode_table.json, for a slot operation its operand's field there, for a byte format all eight bits. -/
def Instr.bits : Instr → FieldBits
  | .nbyte a b c => ⟨0xFF, assembleByte c b a⟩
  | .wbyte a b c => ⟨0xFF, assembleByte a b c⟩
  | .ns0 v => ⟨0x07, assembleByte 0 0 v⟩
  | .ns1 v => ⟨0x18, assembleByte 0 v 0⟩
  | .ns2 v => ⟨0xE0, assembleByte v 0 0⟩
  | .ws0 v => ⟨0xE0, assembleByte v 0 0⟩
  | .ws1 v => ⟨0x18, assembleByte 0 v 0⟩
  | .ws2 v => ⟨0x07, assembleByte 0 0 v⟩
  | .ns0_0 => ⟨0x07, 0x00⟩
  | .ns0_1 => ⟨0x07, 0x01⟩
  | .ns0_2 => ⟨0x07, 0x02⟩
  | .ns0_3 => ⟨0x07, 0x03⟩
  | .ns0_4 => ⟨0x07, 0x04⟩
  | .ns0_5 => ⟨0x07, 0x05⟩
  | .ns0_6 => ⟨0x07, 0x06⟩
  | .ns0_7 => ⟨0x07, 0x07⟩
  | .ns1_0 => ⟨0x18, 0x00⟩
  | .ns1_1 => ⟨0x18, 0x08⟩
  | .ns1_2 => ⟨0x18, 0x10⟩
  | .ns1_3 => ⟨0x18, 0x18⟩
  | .ns2_0 => ⟨0xE0, 0x00⟩
  | .ns2_1 => ⟨0xE0, 0x20⟩
  | .ns2_2 => ⟨0xE0, 0x40⟩
  | .ns2_3 => ⟨0xE0, 0x60⟩
  | .ns2_4 => ⟨0xE0, 0x80⟩
  | .ns2_5 => ⟨0xE0, 0xA0⟩
  | .ns2_6 => ⟨0xE0, 0xC0⟩
  | .ns2_7 => ⟨0xE0, 0xE0⟩
  | .ws0_0 => ⟨0xE0, 0x00⟩
  | .ws0_1 => ⟨0xE0, 0x20⟩
  | .ws0_2 => ⟨0xE0, 0x40⟩
  | .ws0_3 => ⟨0xE0, 0x60⟩
  | .ws0_4 => ⟨0xE0, 0x80⟩
  | .ws0_5 => ⟨0xE0, 0xA0⟩
  | .ws0_6 => ⟨0xE0, 0xC0⟩
  | .ws0_7 => ⟨0xE0, 0xE0⟩
  | .ws1_0 => ⟨0x18, 0x00⟩
  | .ws1_1 => ⟨0x18, 0x08⟩
  | .ws1_2 => ⟨0x18, 0x10⟩
  | .ws1_3 => ⟨0x18, 0x18⟩
  | .ws2_0 => ⟨0x07, 0x00⟩
  | .ws2_1 => ⟨0x07, 0x01⟩
  | .ws2_2 => ⟨0x07, 0x02⟩
  | .ws2_3 => ⟨0x07, 0x03⟩
  | .ws2_4 => ⟨0x07, 0x04⟩
  | .ws2_5 => ⟨0x07, 0x05⟩
  | .ws2_6 => ⟨0x07, 0x06⟩
  | .ws2_7 => ⟨0x07, 0x07⟩

/-- The coded byte that holds an instruction, with the bits it does not fix (the other slots' fields) taken from `others`. -/
def Instr.encodeInto (others : Byte) (i : Instr) : Byte := (others &&& ~~~i.bits.mask) ||| i.bits.value

/-- The words of an instruction: one coded byte, the other slots' fields zero (30 R49). -/
def encode (i : Instr) : List Byte := [i.encodeInto 0]

/-- The coded byte of a bare table word: its low `nbits` bits, the bits above them zero; bit 0 is the least significant (20 R39). -/
def tableByte (nbits w : Nat) : Byte := BitVec.ofNat 8 (w % 2 ^ nbits)

/-- A bare table word as the bytes the decoder is given: one coded byte, the longest instruction (30 R49), or none where the word has no bits. -/
def tableBytes (nbits w : Nat) : List Byte := if nbits = 0 then [] else [tableByte nbits w]

/-- The slot position chosen for a bare table word, which carries neither MODE nor position: the first slot, in Narrow's performing order, whose field is not zero, and slot 0 for the zero byte. DESIGN CHOICE (log 11). -/
def tableSlot (b : Byte) : Slot :=
  if lowField b ≠ 0 then .s0 else if midField b ≠ 0 then .s1 else if topField b ≠ 0 then .s2 else .s0

/-- The selection chosen for a bare table word: MODE = 0 = Narrow, at `tableSlot`. DESIGN CHOICE (log 11). -/
def tableSelection (b : Byte) : Selection := ⟨.narrow, tableSlot b⟩

/-- The instruction the decoder reads from a bare table word, at the selection chosen for it. -/
def decodeTableWord (nbits w : Nat) : Option Instr :=
  match decode .variant (tableSelection (tableByte nbits w)) (tableBytes nbits w) with
  | .ok (i, _) => some i
  | .error _ => none

end Sys2Proof
end

