-- ==== Sys2Proof/Machine/Command.lean ====
section
/-! DEFINITION. The DECODE command (42 R75 to R79; 70 R108): latching, the checks, channel allocation, and the host's move of issuing a command. -/

namespace Sys2Proof.Machine

/-- The host's one move: a DECODE command joins the commands to be issued (42 R75). -/
def State.issue (s : State) (c : Command) : State := { s with requests := s.requests ++ [c] }

/-- Latching a command's arguments into the command registers (42 R75). -/
def latchCommand (c : Command) : Bound where
  mode         := c.mode
  frameCount   := c.frameCount
  channelCount := c.channelCount
  buf          := Memory.ofBytes c.buffer
  bufLen       := c.buffer.length

/-- The checks, in the spec's order: the parameters (42 R76), then the buffer's length (42 R77, R78). -/
def checkCommand (b : Bound) : Option Error :=
  if b.channelCount ≤ 0 ∨ b.frameCount < 0 then some (.invalidParameters b.channelCount b.frameCount)
  else if b.bufLen < b.required then some (.bufferTooShort b.required b.bufLen)
  else none

/-- A fresh ChannelState: every register 0 (42 R79). -/
def ChannelState.fresh : ChannelState := ⟨0, 0, 0, 0, 0⟩

/-- A fresh engine: ChannelState 0, cursor (c, 0, 0, 0), no latched byte, OUT[c] = [] (42 R79, 10 R36). -/
def Engine.fresh : Engine := ⟨ChannelState.fresh, ⟨0, 0, .s0⟩, none, []⟩

/-- Steps 1 to 3 of 70 R108 on a command: latch it with STATUS = BUSY and ERR_CODE = 0, check it, and abort (60 R98) or allocate one fresh engine per channel (42 R79). -/
def State.accept (s : State) (c : Command) : State :=
  let b := latchCommand c
  let s := { s with status := .busy, errCode := .none, cmd := some b, engines := [], result := none }
  match checkCommand b with
  | some e => s.raise e
  | none => { s with engines := List.replicate b.channelCount.toNat Engine.fresh }

/-- A step of a machine that is not BUSY: it accepts the host's oldest command, and does nothing while there is none (70 R107). -/
def State.acceptNext (s : State) : State :=
  match s.requests with
  | [] => s
  | c :: cs => { s with requests := cs }.accept c

end Sys2Proof.Machine
end

