-- ==== Sys2Proof/Machine/Fetch.lean ====
section
/-! DEFINITION. The byte fetch (42 R82), and placing a bare table word where the next step fetches it. -/

namespace Sys2Proof.Machine

/-- What fetching for a slot operation gives. -/
inductive Fetched where
  /-- the byte in the latch, and the state with it latched -/
  | latched (v : Byte) (s : State)
  /-- MemRead failed: the error to raise (20 R37, 60 R100) -/
  | raised (e : Error)
  /-- there is no byte to read in the latch (10 R36) -/
  | stopped (f : Fault)
deriving DecidableEq, Repr

/-- The fetch of engine c (42 R82): at slot 0, B[c] <- MemRead(addr(c, f, k), 1); at slots 1 and 2 the latched byte, which is not read again. -/
def State.fetch (s : State) (b : Bound) (c : Nat) (e : Engine) : Fetched :=
  match e.cur.l with
  | .s0 =>
    match memRead b (addr b c e.cur.f e.cur.k) with
    | .error er => .raised er
    | .ok v => .latched v (s.setEngine c { e with latch := some v })
  | .s1 | .s2 =>
    match e.latch with
    | none => .stopped .latchEmpty
    | some v => .latched v s

/-- The state in which the next step runs a bare table word: a Narrow command of one channel and one frame is bound and checked, its buffer holds the word's byte first, and the engine stands at the slot position chosen for the word (log 11), with the byte latched where that slot reads the latch. -/
def State.placeWord (s : State) (nbits w : Nat) : State :=
  let v := tableByte nbits w
  let l := tableSlot v
  { s with
    status := .busy
    errCode := .none
    cmd := some { mode := .narrow, frameCount := 1, channelCount := 1, buf := Memory.ofBytes [v, 0, 0], bufLen := 3 }
    engines := [{ Engine.fresh with cur := ⟨0, 0, l⟩, latch := if l = .s0 then none else some v }]
    result := none }

end Sys2Proof.Machine
end

