-- ==== Sys2Proof/Machine/Sequencer.lean ====
section
/-! DEFINITION. The sequencer of the StreamDecoder: what one step of the machine does (70 R108, 42 R80 and R91; log 1). -/

namespace Sys2Proof.Machine

/-- A step while a command runs: one slot operation of the engine that moves, with its fetch (42 R80, R82), or the completion when every channel is complete (42 R91). -/
def runCommand (s : State) : Host.Outcome State Fault Refusal :=
  match s.cmd with
  | none => .fault .noCommand
  | some b =>
    match s.selectedIn b with
    | none => .next s.finish
    | some (c, e) =>
      match s.fetch b c e with
      | .raised er => .next (s.raise er)
      | .stopped f => .fault f
      | .latched v s' => exec (decodeVariant ⟨b.mode, e.cur.l⟩ v) s'

/-- One step. A ROM that breaks 10 R27 is refused (70 R109). -/
def sequence (s : State) : Host.Outcome State Fault Refusal :=
  if s.rom.conforms then
    match s.status with
    | .busy => runCommand s
    | .idle | .done | .error => .next s.acceptNext
  else .refused .tablesNotConforming

end Sys2Proof.Machine
end

