-- ==== Sys2Proof/Safety.lean ====
section
/-! DEFINITION. What claims are stated in: the effect of a slot operation in exact integers, the invariant of the machine, the result of a command, and the loop nest of 42 R80 written as one recursion. -/

namespace Sys2Proof.Machine

/-! ## The effect of a slot operation, in integers -/

/-- The step of codedValue v in a family at an index (40 R60, R61), as an integer. -/
def stepValue {s : Nat} (t : Family s) (index : Word) (v : Fin (2 * s)) : Int :=
  if h : v.val < s then (t.steps[(rowOf index).val][v.val]).toInt
  else -1 - (t.steps[(rowOf index).val][2 * s - v.val - 1]'(by have := v.isLt; omega)).toInt

/-- The index after codedValue v (40 R62), as an integer. -/
def indexAfter {s : Nat} (t : Family s) (index : Word) (v : Fin (2 * s)) : Int :=
  max (index.toInt + (t.deltas[v.val]).toInt - index.toInt / 32) 0

/-- What decodeStep leaves (40 R60 to R63): the step by its branch, the new index, and every other register as it was. -/
structure StepDecoded {s : Nat} (t : Family s) (v : Fin (2 * s)) (cs cs' : ChannelState) (step : Word) : Prop where
  magnitude : ∀ h : v.val < s, step = t.steps[(rowOf cs.index).val][v.val] ∧ 0 ≤ step.toInt
  negative  : ∀ h : s ≤ v.val, step.toInt = -1 - (t.steps[(rowOf cs.index).val][2 * s - v.val - 1]'(by have := v.isLt; omega)).toInt ∧
                step.toInt ≤ -1
  index     : cs'.index.toInt =
                if cs.index.toInt + (t.deltas[v.val]).toInt - cs.index.toInt / 32 < 0 then 0
                else cs.index.toInt + (t.deltas[v.val]).toInt - cs.index.toInt / 32
  factor    : cs'.factor = cs.factor
  prev2     : cs'.prev2 = cs.prev2
  previous  : cs'.previous = cs.previous
  level     : cs'.level = cs.level

/-- The clipped sum of a step and a level (41 R66). -/
def currentOf (step level : Int) : Int := asymmetricClip (step + level)

/-- Engine e' is engine e after the Narrow slot operation with codedValue v in family t, in a command whose mode has bpf bytes per frame (40 R62; 41 R68; 42 R80, R83, R90). -/
structure NarrowEffect {s : Nat} (t : Family s) (v : Fin (2 * s)) (bpf : Nat) (e e' : Engine) : Prop where
  index    : e'.cs.index.toInt = indexAfter t e.cs.index v
  level    : e'.cs.level.toInt = currentOf (stepValue t e.cs.index v) e.cs.level.toInt
               - currentOf (stepValue t e.cs.index v) e.cs.level.toInt / 8
  factor   : e'.cs.factor = e.cs.factor
  prev2    : e'.cs.prev2 = e.cs.prev2
  previous : e'.cs.previous = e.cs.previous
  out      : e'.out = e.out ++ [reorderBytes (BitVec.ofInt 16 (currentOf (stepValue t e.cs.index v) e.cs.level.toInt))]
  latch    : e'.latch = e.latch
  cur      : e'.cur = e.cur.advance bpf

/-- The factor after a step (41 R69), as an integer. -/
def factorAfter (cs : ChannelState) (step : Int) : Int :=
  if (0 ≤ cs.previous.toInt ↔ 0 ≤ step) then min (cs.factor.toInt + 506) 32767 else max (cs.factor.toInt - 314) (-32767)

/-- The halved current of a Wide slot operation (41 R70, R71), as an integer. -/
def halfOf (cs : ChannelState) (step : Int) : Int := currentOf step cs.level.toInt / 2

/-- The interpolation term k of a Wide slot operation (41 R71), as an integer. -/
def interpolationOf (cs : ChannelState) (step : Int) : Int := (cs.prev2.toInt - halfOf cs step) / 4

/-- The first reorderBytes argument of a Wide synthesis (41 R71). -/
def wideArgument1 (cs : ChannelState) (step : Int) : Int :=
  cs.previous.toInt + cs.prev2.toInt - interpolationOf cs step

/-- The second reorderBytes argument of a Wide synthesis (41 R71). -/
def wideArgument2 (cs : ChannelState) (step : Int) : Int :=
  cs.previous.toInt + halfOf cs step + interpolationOf cs step

/-- Both reorderBytes arguments of a Wide synthesis are in int16, as they are in every reachable state (41 R71, R74). -/
def wideArgumentsOk (cs : ChannelState) (step : Int) : Prop :=
  -32768 ≤ wideArgument1 cs step ∧ wideArgument1 cs step ≤ 32767 ∧ -32768 ≤ wideArgument2 cs step ∧ wideArgument2 cs step ≤ 32767

/-- What a Wide synthesis of a step does to a ChannelState and which samples it gives (41 R69 to R73). -/
structure WideSynthesis (step : Int) (cs cs' : ChannelState) (samples : List Word) : Prop where
  index    : cs'.index = cs.index
  factor   : cs'.factor.toInt = factorAfter cs step
  level    : cs'.level.toInt = currentOf step cs.level.toInt * factorAfter cs step / 32768
  prev2    : cs'.prev2 = cs.previous
  previous : cs'.previous.toInt = halfOf cs step
  samples  : samples =
    [reorderBytes (BitVec.ofInt 16 (wideArgument1 cs step)), reorderBytes (BitVec.ofInt 16 (wideArgument2 cs step))]

/-- Engine e' is engine e after the Wide slot operation with codedValue v in family t (40 R62; 41 R73; 42 R80, R83, R90). -/
structure WideEffect {s : Nat} (t : Family s) (v : Fin (2 * s)) (bpf : Nat) (e e' : Engine) : Prop where
  index  : e'.cs.index.toInt = indexAfter t e.cs.index v
  synth  : ∃ samples, WideSynthesis (stepValue t e.cs.index v) e.cs { e'.cs with index := e.cs.index } samples ∧
             e'.out = e.out ++ samples
  latch  : e'.latch = e.latch
  cur    : e'.cur = e.cur.advance bpf

/-- The predictive history is in the range the Wide synthesizer keeps it in (10 R22). -/
def ChannelState.historyOk (cs : ChannelState) : Prop :=
  -16384 ≤ cs.prev2.toInt ∧ cs.prev2.toInt ≤ 16383 ∧ -16384 ≤ cs.previous.toInt ∧ cs.previous.toInt ≤ 16383

/-! ## The invariant -/

/-- The registers that only the Wide synthesizer writes keep 0 in Narrow (10 R19); the level and the history stay in their ranges (10 R22). -/
def ChannelState.modeRange (m : Mode) (cs : ChannelState) : Prop :=
  match m with
  | .narrow => cs.factor = 0 ∧ cs.prev2 = 0 ∧ cs.previous = 0 ∧ -28672 ≤ cs.level.toInt ∧ cs.level.toInt ≤ 28672
  | .wide => -32767 ≤ cs.level.toInt ∧ cs.level.toInt ≤ 32767 ∧ cs.historyOk

/-- The ranges of the five registers in a command (10 R20 to R22; 40 R64). -/
structure ChannelState.InRange (m : Mode) (cs : ChannelState) : Prop where
  indexLow  : 0 ≤ cs.index.toInt
  indexHigh : cs.index.toInt ≤ 32736
  factorLow : -32767 ≤ cs.factor.toInt
  byMode    : cs.modeRange m

/-- A command that passed its checks: legal counts, a buffer long enough (42 R76, R77), BUF in canonical form inside [0, BUF_LEN). -/
structure Bound.Inv (b : Bound) : Prop where
  channels : 1 ≤ b.channelCount
  frames   : 0 ≤ b.frameCount
  enough   : b.required ≤ b.bufLen
  canon    : Memory.wf b.buf = true
  inside   : ∀ cell ∈ b.buf, cell.1 < b.bufLen

/-- The number of slot operations a cursor lies after its channel's start (42 R80). -/
def Cursor.position (bpf : Nat) (u : Cursor) : Nat := 3 * (u.f * bpf + u.k) + slotNumber u.l

/-- An engine of channel c in a command: register ranges, cursor in its ranges (10 R29), the latch holding the byte at the cursor after slot 0 (10 R30), and the output length law (42 R90). -/
structure Engine.Inv (b : Bound) (c : Nat) (e : Engine) : Prop where
  range   : e.cs.InRange b.mode
  frame   : (e.cur.f : Int) ≤ b.frameCount
  byte    : e.cur.k < bytesPerFrame b.mode
  atEnd   : (e.cur.f : Int) = b.frameCount → e.cur.k = 0 ∧ e.cur.l = .s0
  latched : e.cur.l ≠ .s0 → e.latch = some (Memory.read b.buf (addr b c e.cur.f e.cur.k).toNat)
  length  : e.out.length = samplesPerSlot b.mode * e.cur.position (bytesPerFrame b.mode)

/-- The machine while command b runs. -/
structure State.BusyInv (s : State) (b : Bound) : Prop where
  code    : s.errCode = .none
  pending : s.result = none
  bound   : b.Inv
  count   : (s.engines.length : Int) = b.channelCount
  engine  : ∀ (c : Nat) (e : Engine), s.engines[c]? = some e → e.Inv b c

/-- The invariant of the machine: STATUS says what exists (10 R32, R35, R36). Outside a command nothing command-scoped exists; ERR_CODE is 0 but after an error; the result is that of the last command. -/
def State.Inv (s : State) : Prop :=
  match s.status, s.cmd with
  | .busy, some b => s.BusyInv b
  | .idle, none => s.errCode = .none ∧ s.engines = [] ∧ s.result = none
  | .done, none => s.errCode = .none ∧ s.engines = [] ∧ ∃ outs, s.result = some (.ok outs)
  | .error, none => s.engines = [] ∧ ∃ e : Error, s.result = some (.err e) ∧ s.errCode = e.errCode
  | _, _ => False

/-! ## Commands from start to end -/

/-- The number of slot operations of one channel: FRAME_COUNT × bytesPerFrame × 3 (42 R80). -/
def slotsPerChannel (m : Mode) (frameCount : Int) : Nat := frameCount.toNat * bytesPerFrame m * 3

/-- Steps from issuing a legal command to its result: the acceptance, every slot operation, the completion (log 1). -/
def decodeSteps (c : Command) : Nat := c.channelCount.toNat * slotsPerChannel c.mode c.frameCount + 2

/-- The state after n steps, or nothing if a step faulted or was refused. -/
def State.after (s : State) (n : Nat) : Option State :=
  match Sys2Proof.core.run n s with
  | .next t => some t
  | .fault _ => none
  | .refused _ => none

/-- The result of a DECODE command on a machine s that is not BUSY, under a schedule. -/
def State.decodeFrom (s : State) (turns : List Nat) (c : Command) : Option Result :=
  match { s with requests := [c], turns := turns }.after (decodeSteps c) with
  | none => none
  | some t => t.result

/-- A command that passes its checks (42 R76, R77). -/
structure Command.Legal (c : Command) : Prop where
  channels : 1 ≤ c.channelCount
  frames   : 0 ≤ c.frameCount
  enough   : c.channelCount * c.frameCount * bytesPerFrame c.mode ≤ c.buffer.length

/-- The single-channel command on channel ch's lane: the bytes at addr(ch, f, k) in (f, k) order (42 R93). -/
def Command.lane (c : Command) (ch : Nat) : Command :=
  { c with
    channelCount := 1
    buffer := (List.range (c.frameCount.toNat * bytesPerFrame c.mode)).map fun n =>
      c.buffer.getD (addrWith (laneStride c.mode) c.channelCount ch (n / bytesPerFrame c.mode : Nat) (n % bytesPerFrame c.mode : Nat)).toNat 0 }

/-! ## The loop nest of 42 R80 as one recursion -/

/-- The slot of the n-th slot operation of a byte. -/
def slotOfNumber : Nat → Slot
  | 0 => .s0
  | 1 => .s1
  | _ => .s2

/-- slotOp(mode, l, c) on a byte, without cursor, latch or output (42 R83). -/
def referenceSlot (rom : Tables) (m : Mode) (l : Slot) (byte : Byte) (cs : ChannelState) : Except Fault (ChannelState × List Word) := do
  let (cs, step) ← match l with
    | .s0 => decodeStep rom.wideStride cs (slot0Field m byte).toFin
    | .s1 => decodeStep rom.narrowStride cs (midField byte).toFin
    | .s2 => decodeStep rom.wideStride cs (slot2Field m byte).toFin
  synthesize m cs step

/-- Channel ch of a command after its first n slot operations: its ChannelState and its output (42 R79, R80). Operation n is slot n mod 3 of byte (n / 3) of the lane. -/
def referenceChannel (rom : Tables) (c : Command) (ch : Nat) : Nat → Except Fault (ChannelState × List Word)
  | 0 => .ok (ChannelState.fresh, [])
  | n + 1 => do
    let (cs, out) ← referenceChannel rom c ch n
    let byte := c.buffer.getD (addrWith (laneStride c.mode) c.channelCount ch
      (n / 3 / bytesPerFrame c.mode : Nat) (n / 3 % bytesPerFrame c.mode : Nat)).toNat 0
    let (cs, samples) ← referenceSlot rom c.mode (slotOfNumber (n % 3)) byte cs
    return (cs, out ++ samples)

end Sys2Proof.Machine
end

