-- ==== Sys2Proof/Certificates/Slice0/Obligations.lean ====
section
/-! DEFINITION. The statements for the provers. Each docstring names the rules of spec/ it formalises. -/

open Sys2Proof Sys2Proof.Machine

/-! ## Encoding -/

/-- Bytes written out from 30 R50, R51 and 95 §2.8 decode to the variants and byte formats they stand for. -/
def Obligations.SpecBytesDecodeToTheirRows : Prop :=
  decodeVariant ⟨.narrow, .s0⟩ 0x5C#8 = .ns0_4 ∧ decodeVariant ⟨.narrow, .s1⟩ 0x5C#8 = .ns1_3 ∧
  decodeVariant ⟨.narrow, .s2⟩ 0x5C#8 = .ns2_2 ∧ decodeVariant ⟨.wide, .s0⟩ 0x5C#8 = .ws0_2 ∧
  decodeVariant ⟨.wide, .s1⟩ 0x5C#8 = .ws1_3 ∧ decodeVariant ⟨.wide, .s2⟩ 0x5C#8 = .ws2_4 ∧
  decode .byteFormat ⟨.narrow, .s0⟩ [0x75#8] = .ok (.nbyte 5 2 3, []) ∧
  decode .byteFormat ⟨.wide, .s0⟩ [0x75#8] = .ok (.wbyte 3 2 5, []) ∧
  decode .slotOperation ⟨.narrow, .s2⟩ [0xE0#8] = .ok (.ns2 7, [])

/-- For all 48 constructors and every operand: decoding the byte that holds an instruction, at the instruction's selection, gives it back, whatever the other slots' bits and the bytes after it. -/
def Obligations.EncodedInstructionDecodesBack : Prop :=
  ∀ (i : Instr) (others : Byte) (rest : List Byte),
    decode i.kind i.selection (i.encodeInto others :: rest) = .ok (i, rest) ∧
    decode i.kind i.selection (encode i) = .ok (i, [])

/-- 30 R57: every byte value is valid. At every selection at which a row of the kind can stand, every byte decodes to a well-formed instruction of that kind. -/
def Obligations.EveryByteIsAValidCodedByte : Prop :=
  ∀ (k : RowKind) (sel : Selection) (b : Byte) (rest : List Byte), (k = .byteFormat → sel.slot = .s0) →
    ∃ i, decode k sel (b :: rest) = .ok (i, rest) ∧ i.wellFormed sel = true ∧ i.kind = k

/-- A byte decodes to a variant exactly when the variant stands at the selection and the byte matches the mask and match of the variant's row of the opcode table. -/
def Obligations.VariantDecodesExactlyWhereItsRowMatches : Prop :=
  ∀ (sel : Selection) (b : Byte) (i : Instr), i.kind = .variant →
    (decodeVariant sel b = i ↔ i.wellFormed sel = true ∧ b &&& i.bits.mask = i.bits.value)

/-- 30 R53: the operand of a slot operation is its field, read as an unsigned integer and nothing else. -/
def Obligations.CodedValueIsItsZeroExtendedField : Prop :=
  ∀ b : Byte,
    (∃ v : BitVec 3, decodeSlotOperation ⟨.narrow, .s0⟩ b = .ns0 v ∧ v.toNat = b.toNat % 8) ∧
    (∃ v : BitVec 2, decodeSlotOperation ⟨.narrow, .s1⟩ b = .ns1 v ∧ v.toNat = b.toNat / 8 % 4) ∧
    (∃ v : BitVec 3, decodeSlotOperation ⟨.narrow, .s2⟩ b = .ns2 v ∧ v.toNat = b.toNat / 32) ∧
    (∃ v : BitVec 3, decodeSlotOperation ⟨.wide, .s0⟩ b = .ws0 v ∧ v.toNat = b.toNat / 32) ∧
    (∃ v : BitVec 2, decodeSlotOperation ⟨.wide, .s1⟩ b = .ws1 v ∧ v.toNat = b.toNat / 8 % 4) ∧
    (∃ v : BitVec 3, decodeSlotOperation ⟨.wide, .s2⟩ b = .ws2 v ∧ v.toNat = b.toNat % 8)

/-! ## StepDecoder -/

/-- 30 R54 (the complement is derived by the spec): branch and column of every codedValue, and, in a family whose deltas meet 10 R27 (b), the two codedValues v and 2s-1-v give one's-complement negatives of each other. -/
def Obligations.MirroredCodedValuesGiveComplementSteps : Prop :=
  ∀ (s : Nat) (t : Family s) (cs : ChannelState) (v u : Fin (2 * s)), t.deltasOk = true → u.val = 2 * s - 1 - v.val →
    (v.val < s → branchOf s v = .magnitude ∧ (columnOf s v).val = v.val) ∧
    (s ≤ v.val → branchOf s v = .negative ∧ (columnOf s v).val = 2 * s - v.val - 1) ∧
    ∃ cs₁ cs₂ step₁ step₂, decodeStep t cs v = .ok (cs₁, step₁) ∧ decodeStep t cs u = .ok (cs₂, step₂) ∧ step₂ = ~~~step₁

/-- 40 R59: the row is bits [10:4] of index, so bits [3:0] and [15:11] do not affect it. -/
def Obligations.RowIsBits10To4OfIndex : Prop :=
  (∀ w : Word, (rowOf w).val = w.toNat / 16 % 128) ∧
  (∀ w : Word, 0 ≤ w.toInt → ((rowOf w).val : Int) = w.toInt / 16 % 128) ∧
  (rowOf 2047#16).val = 127 ∧ (rowOf 2048#16).val = 0

/-- 40 R60 to R63: decodeStep never fails; its step, its index update and its frame, for both table families of a conforming ROM, every codedValue and every ChannelState. -/
def Obligations.DecodeStepIsTotalAndAdvancesIndex : Prop :=
  ∀ (rom : Tables), rom.conforms = true → ∀ cs : ChannelState,
    (∀ v : Fin (2 * 4), ∃ cs' step, decodeStep rom.wideStride cs v = .ok (cs', step) ∧ StepDecoded rom.wideStride v cs cs' step) ∧
    (∀ v : Fin (2 * 2), ∃ cs' step, decodeStep rom.narrowStride cs v = .ok (cs', step) ∧ StepDecoded rom.narrowStride v cs cs' step)

/-- 40 R64 (derived by the spec): with d an upper bound of the delta entries, index stays in [0, 32·d] after every update; the bound of 10 R27 gives index ≤ 32736. -/
def Obligations.IndexStaysWithinThirtyTwoTimesLargestDelta : Prop :=
  ∀ (s : Nat) (t : Family s) (d : Int) (cs : ChannelState) (v : Fin (2 * s)),
    0 ≤ d → d ≤ 1023 → (∀ u : Fin (2 * s), (t.deltas[u.val]).toInt ≤ d) →
    0 ≤ cs.index.toInt → cs.index.toInt ≤ 32 * d →
    ∃ cs' step, decodeStep t cs v = .ok (cs', step) ∧ 0 ≤ cs'.index.toInt ∧ cs'.index.toInt ≤ 32 * d ∧ cs'.index.toInt ≤ 32736

/-! ## SampleSynthesizer -/

/-- 41 R66: asymmetricClip, its range, and -32768 as the only input that gives -32768. -/
def Obligations.AsymmetricClipValues : Prop :=
  ∀ n : Int,
    (32767 < n → asymmetricClip n = 32767) ∧ (n < -32768 → asymmetricClip n = -32767) ∧
    (-32768 ≤ n → n ≤ 32767 → asymmetricClip n = n) ∧
    -32768 ≤ asymmetricClip n ∧ asymmetricClip n ≤ 32767 ∧ (asymmetricClip n = -32768 ↔ n = -32768)

/-- 41 R67: reorderBytes is HCP's formula; it depends only on x[15:8], and its low byte equals its high byte. -/
def Obligations.ReorderBytesDuplicatesTheHighByte : Prop :=
  ∀ x : Word,
    reorderBytes x = (x &&& 0xFF00#16) ||| ((x >>> 8) &&& 0xFF#16) ∧
    (reorderBytes x).extractLsb' 0 8 = x.extractLsb' 8 8 ∧ (reorderBytes x).extractLsb' 8 8 = x.extractLsb' 8 8 ∧
    (∀ y : Word, y.extractLsb' 8 8 = x.extractLsb' 8 8 → reorderBytes y = reorderBytes x)

/-- 41 R68 (its shift is arithmetic by the decision 92 D8, log 4): narrowSynth never fails, gives one sample taken from the clipped sum, and writes level only. -/
def Obligations.NarrowSynthesizerLeaksAndEmitsOneSample : Prop :=
  ∀ (cs : ChannelState) (step : Word), ∃ (level : Word) (current : Int),
    current = asymmetricClip (step.toInt + cs.level.toInt) ∧
    narrowSynth cs step = .ok ({ cs with level := level }, [reorderBytes (BitVec.ofInt 16 current)]) ∧
    (BitVec.ofInt 16 current).toInt = current ∧ level.toInt = current - current / 8

/-- 41 R69 to R73 (the shift of k is arithmetic by the decision 92 D8, log 4): wideSynth on a history in its range (10 R22): the seven steps, two samples, index neither read nor written. -/
def Obligations.WideSynthesizerFeedsBackAndInterpolates : Prop :=
  ∀ (cs : ChannelState) (step : Word), cs.historyOk →
    ∃ cs' samples, wideSynth cs step = .ok (cs', samples) ∧ WideSynthesis step.toInt cs cs' samples ∧
      ∀ w : Word, wideSynth { cs with index := w } step = .ok ({ cs' with index := w }, samples)

/-- 92 D7 (the model's fault for it: log 14; the shift of k, on which the arguments depend, is arithmetic by the decision 92 D8, log 4): a Wide synthesis with a reorderBytes argument outside int16 stops, and only then; otherwise it is the synthesis of 41 R73. -/
def Obligations.WideSynthesizerStopsExactlyOutsideInt16 : Prop :=
  ∀ (cs : ChannelState) (step : Word),
    (¬ wideArgumentsOk cs step.toInt → wideSynth cs step = .error .reorderOutOfInt16) ∧
    (wideArgumentsOk cs step.toInt →
      ∃ cs' samples, wideSynth cs step = .ok (cs', samples) ∧ WideSynthesis step.toInt cs cs' samples)

/-- 00 R7 (the decision 92 D7, log 14): a register is written only with a value in int16, and any other store faults. -/
def Obligations.RegisterStoreNeedsInt16 : Prop :=
  ∀ v : Int, (-32768 ≤ v ∧ v ≤ 32767 → ∃ w : Word, storeInt16 v = .ok w ∧ w.toInt = v) ∧
    (¬ (-32768 ≤ v ∧ v ≤ 32767) → storeInt16 v = .error .storeOutOfInt16)

/-- 10 R20, R21, R22 (derived by the spec, with the shifts of 92 D8, log 4): in both modes and both families a slot operation of a conforming ROM, on registers in their ranges, completes and leaves them in their ranges; in Narrow the registers of the Wide synthesizer keep 0. -/
def Obligations.SlotOperationsKeepRegisterRanges : Prop :=
  ∀ (rom : Tables) (b : Bound) (m : Mode) (e : Engine), rom.conforms = true → e.cs.InRange m →
    (∀ v : Fin (2 * 4), ∃ e', slotOp rom.wideStride b m v e = .ok e' ∧ e'.cs.InRange m) ∧
    (∀ v : Fin (2 * 2), ∃ e', slotOp rom.narrowStride b m v e = .ok e' ∧ e'.cs.InRange m)

/-! ## The instructions -/

/-- 42 R84 to R86; 41 R68 (shift by 3: 92 D8, log 4; exec at whatever MODE and slot the machine stands at, the cursor advancing by the bound MODE: log 9): N.S0, N.S1, N.S2 complete on every selected engine, whatever its registers and operand, with the Narrow effect in the slot's family. -/
def Obligations.NarrowSlotOperationsComplete : Prop :=
  ∀ (s : State) (b : Bound) (c : Nat) (e : Engine), s.rom.conforms = true → s.cmd = some b → s.selected = some (c, e) →
    (∀ v : BitVec 3, ∃ e', exec (.ns0 v) s = .next (s.commit c e') ∧
      NarrowEffect s.rom.wideStride v.toFin (bytesPerFrame b.mode) e e') ∧
    (∀ v : BitVec 2, ∃ e', exec (.ns1 v) s = .next (s.commit c e') ∧
      NarrowEffect s.rom.narrowStride v.toFin (bytesPerFrame b.mode) e e') ∧
    (∀ v : BitVec 3, ∃ e', exec (.ns2 v) s = .next (s.commit c e') ∧
      NarrowEffect s.rom.wideStride v.toFin (bytesPerFrame b.mode) e e')

/-- 30 R54; 41 R68; 42 R84 to R86 (shift by 3: 92 D8, log 4; exec at whatever MODE and slot: log 9): the 20 Narrow variants (ns0_0 to ns0_7, ns1_0 to ns1_3, ns2_0 to ns2_7, listed here with their codedValues) complete, each with the Narrow effect of its codedValue. -/
def Obligations.NarrowVariantsComplete : Prop :=
  ∀ (s : State) (b : Bound) (c : Nat) (e : Engine), s.rom.conforms = true → s.cmd = some b → s.selected = some (c, e) →
    (∀ p ∈ ([(.ns0_0, 0), (.ns0_1, 1), (.ns0_2, 2), (.ns0_3, 3), (.ns0_4, 4), (.ns0_5, 5), (.ns0_6, 6), (.ns0_7, 7),
             (.ns2_0, 0), (.ns2_1, 1), (.ns2_2, 2), (.ns2_3, 3), (.ns2_4, 4), (.ns2_5, 5), (.ns2_6, 6), (.ns2_7, 7)]
             : List (Instr × Fin (2 * 4))),
      ∃ e', exec p.1 s = .next (s.commit c e') ∧ NarrowEffect s.rom.wideStride p.2 (bytesPerFrame b.mode) e e') ∧
    (∀ p ∈ ([(.ns1_0, 0), (.ns1_1, 1), (.ns1_2, 2), (.ns1_3, 3)] : List (Instr × Fin (2 * 2))),
      ∃ e', exec p.1 s = .next (s.commit c e') ∧ NarrowEffect s.rom.narrowStride p.2 (bytesPerFrame b.mode) e e')

/-- 42 R87 to R89; 41 R73 (shift of k: 92 D8, log 4; exec at whatever MODE and slot the machine stands at, the cursor advancing by the bound MODE: log 9): W.S0, W.S1, W.S2 complete on every selected engine whose reorderBytes arguments are in int16, with the Wide effect in the slot's family. -/
def Obligations.WideSlotOperationsComplete : Prop :=
  ∀ (s : State) (b : Bound) (c : Nat) (e : Engine), s.rom.conforms = true → s.cmd = some b → s.selected = some (c, e) →
    (∀ v : BitVec 3, wideArgumentsOk e.cs (stepValue s.rom.wideStride e.cs.index v.toFin) →
      ∃ e', exec (.ws0 v) s = .next (s.commit c e') ∧ WideEffect s.rom.wideStride v.toFin (bytesPerFrame b.mode) e e') ∧
    (∀ v : BitVec 2, wideArgumentsOk e.cs (stepValue s.rom.narrowStride e.cs.index v.toFin) →
      ∃ e', exec (.ws1 v) s = .next (s.commit c e') ∧ WideEffect s.rom.narrowStride v.toFin (bytesPerFrame b.mode) e e') ∧
    (∀ v : BitVec 3, wideArgumentsOk e.cs (stepValue s.rom.wideStride e.cs.index v.toFin) →
      ∃ e', exec (.ws2 v) s = .next (s.commit c e') ∧ WideEffect s.rom.wideStride v.toFin (bytesPerFrame b.mode) e e')

/-- 30 R54; 41 R73; 42 R87 to R89 (shift of k: 92 D8, log 4; exec at whatever MODE and slot: log 9): the 20 Wide variants complete where their reorderBytes arguments are in int16, each with the Wide effect of its codedValue. -/
def Obligations.WideVariantsComplete : Prop :=
  ∀ (s : State) (b : Bound) (c : Nat) (e : Engine), s.rom.conforms = true → s.cmd = some b → s.selected = some (c, e) →
    (∀ p ∈ ([(.ws0_0, 0), (.ws0_1, 1), (.ws0_2, 2), (.ws0_3, 3), (.ws0_4, 4), (.ws0_5, 5), (.ws0_6, 6), (.ws0_7, 7),
             (.ws2_0, 0), (.ws2_1, 1), (.ws2_2, 2), (.ws2_3, 3), (.ws2_4, 4), (.ws2_5, 5), (.ws2_6, 6), (.ws2_7, 7)]
             : List (Instr × Fin (2 * 4))),
      wideArgumentsOk e.cs (stepValue s.rom.wideStride e.cs.index p.2) →
      ∃ e', exec p.1 s = .next (s.commit c e') ∧ WideEffect s.rom.wideStride p.2 (bytesPerFrame b.mode) e e') ∧
    (∀ p ∈ ([(.ws1_0, 0), (.ws1_1, 1), (.ws1_2, 2), (.ws1_3, 3)] : List (Instr × Fin (2 * 2))),
      wideArgumentsOk e.cs (stepValue s.rom.narrowStride e.cs.index p.2) →
      ∃ e', exec p.1 s = .next (s.commit c e') ∧ WideEffect s.rom.narrowStride p.2 (bytesPerFrame b.mode) e e')

/-- 30 R50, R51: NBYTE, and WBYTE on a history in its range (10 R22), complete, with the effects of slots 0, 1, 2 one after the other (as one move: log 10; shifts: 92 D8, log 4; exec at whatever MODE and slot: log 9). -/
def Obligations.ByteFormatsCompleteAsThreeSlotOperations : Prop :=
  ∀ (s : State) (bd : Bound) (ch : Nat) (e : Engine), s.rom.conforms = true → s.cmd = some bd → s.selected = some (ch, e) →
    ∀ (a : BitVec 3) (b : BitVec 2) (c : BitVec 3),
      (∃ e₁ e₂ e₃, exec (.nbyte a b c) s = .next (s.commit ch e₃) ∧
        NarrowEffect s.rom.wideStride a.toFin (bytesPerFrame bd.mode) e e₁ ∧
        NarrowEffect s.rom.narrowStride b.toFin (bytesPerFrame bd.mode) e₁ e₂ ∧
        NarrowEffect s.rom.wideStride c.toFin (bytesPerFrame bd.mode) e₂ e₃) ∧
      (e.cs.historyOk → ∃ e₁ e₂ e₃, exec (.wbyte a b c) s = .next (s.commit ch e₃) ∧
        WideEffect s.rom.wideStride a.toFin (bytesPerFrame bd.mode) e e₁ ∧
        WideEffect s.rom.narrowStride b.toFin (bytesPerFrame bd.mode) e₁ e₂ ∧
        WideEffect s.rom.wideStride c.toFin (bytesPerFrame bd.mode) e₂ e₃)

/-- 30 (introduction), R54 (exec at whatever MODE and slot the machine stands at: log 9): each variant row, whose branch, column and delta index are written out, means the slot operation with its codedValue: at every selection and for every byte the variant and the slot operation decoded from it do the same. -/
def Obligations.VariantRowsMeanTheirSlotOperation : Prop :=
  ∀ (sel : Selection) (b : Byte) (s : State), exec (decodeVariant sel b) s = exec (decodeSlotOperation sel b) s

/-- The frame of all 48 instructions (10 R19; 20 R38, R45; 42 R83; 60 R105. That NBYTE and WBYTE keep the latch, use one turn and let no other engine move between their slots is log 10's choice, the schedule itself log 5's, and exec at whatever MODE and slot log 9's): only the selected engine changes, and of it not the latch; its output grows at its end; in Narrow the registers of the Wide synthesizer stay; every byte of BUF, the ROM, STATUS, ERR_CODE, the command registers and the result stay. -/
def Obligations.InstructionsChangeOnlyTheirEngine : Prop :=
  ∀ (i : Instr) (s t : State), exec i s = .next t →
    ∃ b c e e', s.cmd = some b ∧ s.selected = some (c, e) ∧ s.engines[c]? = some e ∧ t.engines[c]? = some e' ∧
      (∀ c' : Nat, c' ≠ c → t.engines[c']? = s.engines[c']?) ∧ t.engines.length = s.engines.length ∧
      e'.latch = e.latch ∧ (∃ samples, e'.out = e.out ++ samples) ∧
      (i.mode = .narrow → e'.cs.factor = e.cs.factor ∧ e'.cs.prev2 = e.cs.prev2 ∧ e'.cs.previous = e.cs.previous) ∧
      t.rom = s.rom ∧ t.status = s.status ∧ t.errCode = s.errCode ∧ t.cmd = s.cmd ∧ t.result = s.result ∧
      t.requests = s.requests ∧ t.turns = s.turns.tail ∧
      (∀ b', t.cmd = some b' → ∀ a : Int, memRead b' a = memRead b a)

/-- 10 R36, 70 R107 (the decision 92 D13; log 7): with no command bound, or no engine left to move, every instruction faults on the read of what is absent. -/
def Obligations.InstructionsFaultOnAbsentState : Prop :=
  ∀ (i : Instr) (s : State),
    (s.cmd = none → exec i s = .fault .noCommand) ∧
    (∀ b, s.cmd = some b → s.selected = none → exec i s = .fault .noEngine)

/-- 92 D7 (log 14; the shift of k: 92 D8, log 4; exec at whatever MODE and slot the machine stands at: log 9; a byte as one move: log 10): W.S0, W.S1 and W.S2 stop by name on a selected engine whose reorderBytes arguments are not both in int16. WBYTE stops by the same name where they are not at its slot 0, or, after slot 0's effect, at its slot 1; else it completes with the effects of its three slots, since two slots leave a history in its range (10 R22), on which slot 2 does not stop. -/
def Obligations.WideSlotOperationsStopOutsideInt16 : Prop :=
  ∀ (s : State) (b : Bound) (c : Nat) (e : Engine), s.rom.conforms = true → s.cmd = some b → s.selected = some (c, e) →
    (∀ v : BitVec 3, ¬ wideArgumentsOk e.cs (stepValue s.rom.wideStride e.cs.index v.toFin) →
      exec (.ws0 v) s = .fault .reorderOutOfInt16 ∧ exec (.ws2 v) s = .fault .reorderOutOfInt16) ∧
    (∀ v : BitVec 2, ¬ wideArgumentsOk e.cs (stepValue s.rom.narrowStride e.cs.index v.toFin) →
      exec (.ws1 v) s = .fault .reorderOutOfInt16) ∧
    ∀ (v₀ : BitVec 3) (v₁ : BitVec 2) (v₂ : BitVec 3),
      (¬ wideArgumentsOk e.cs (stepValue s.rom.wideStride e.cs.index v₀.toFin) →
        exec (.wbyte v₀ v₁ v₂) s = .fault .reorderOutOfInt16) ∧
      (wideArgumentsOk e.cs (stepValue s.rom.wideStride e.cs.index v₀.toFin) →
        ∃ e₁, WideEffect s.rom.wideStride v₀.toFin (bytesPerFrame b.mode) e e₁ ∧
          (¬ wideArgumentsOk e₁.cs (stepValue s.rom.narrowStride e₁.cs.index v₁.toFin) →
            exec (.wbyte v₀ v₁ v₂) s = .fault .reorderOutOfInt16) ∧
          (wideArgumentsOk e₁.cs (stepValue s.rom.narrowStride e₁.cs.index v₁.toFin) →
            ∃ e₂ e₃, WideEffect s.rom.narrowStride v₁.toFin (bytesPerFrame b.mode) e₁ e₂ ∧
              WideEffect s.rom.wideStride v₂.toFin (bytesPerFrame b.mode) e₂ e₃ ∧
              exec (.wbyte v₀ v₁ v₂) s = .next (s.commit c e₃)))

/-! ## Memory and addresses -/

/-- 20 R37, 10 R16: MemRead on the bound buffer gives byte a of the host's sequence for 0 ≤ a < BUF_LEN, and OutOfRangeAccess(a) otherwise. -/
def Obligations.MemReadReturnsTheHostsBytes : Prop :=
  ∀ (cmd : Command) (a : Int),
    (∀ n : Nat, a = n → ∀ h : n < cmd.buffer.length, memRead (latchCommand cmd) a = .ok cmd.buffer[n]) ∧
    (a < 0 ∨ (cmd.buffer.length : Int) ≤ a → memRead (latchCommand cmd) a = .error (.offsetOutOfRange a))

/-- 42 R81, 20 R43 (lane stride 3 and 6 by the decision 92 D5, log 3): under the spec's lane stride the addresses of a command lie in [0, required), and each offset there is the address of exactly one (c, f, k). -/
def Obligations.AddressesCoverTheRequiredBytesOnce : Prop :=
  ∀ (m : Mode) (C F : Nat), 1 ≤ C →
    (∀ c f k : Nat, c < C → f < F → k < bytesPerFrame m →
      0 ≤ addrWith (laneStride m) C c f k ∧ addrWith (laneStride m) C c f k < C * F * bytesPerFrame m) ∧
    (∀ n : Nat, n < C * F * bytesPerFrame m →
      ∃! p : Nat × Nat × Nat, (p.1 < C ∧ p.2.1 < F ∧ p.2.2 < bytesPerFrame m) ∧
        addrWith (laneStride m) C p.1 p.2.1 p.2.2 = n)

/-- 60 R100: for every lane stride L with 1 ≤ L ≤ bytesPerFrame the addresses of a command stay in [0, C·F·bpf). -/
def Obligations.AddressesStayInRangeForEveryLaneStride : Prop :=
  ∀ (L bpf C F c f k : Int), 1 ≤ L → L ≤ bpf → 0 ≤ c → c < C → 0 ≤ f → f < F → 0 ≤ k → k < bpf →
    0 ≤ addrWith L C c f k ∧ addrWith L C c f k < C * F * bpf

/-- 42 R80: the cursor's advance is the next position of the loop nest: slots 0, 1, 2 of a byte, then the next byte, then the next frame. -/
def Obligations.CursorAdvancesInLoopOrder : Prop :=
  ∀ (bpf : Nat) (u : Cursor), u.k < bpf →
    (u.advance bpf).position bpf = u.position bpf + 1 ∧ (u.advance bpf).k < bpf ∧
    (u.l = .s0 → u.advance bpf = ⟨u.f, u.k, .s1⟩) ∧ (u.l = .s1 → u.advance bpf = ⟨u.f, u.k, .s2⟩) ∧
    (u.l = .s2 → u.k + 1 < bpf → u.advance bpf = ⟨u.f, u.k + 1, .s0⟩) ∧
    (u.l = .s2 → u.k + 1 = bpf → u.advance bpf = ⟨u.f + 1, 0, .s0⟩)

/-! ## The step of the machine -/

/-- 42 R80, R82; 30 R56 (the grain of a step: log 1): a step of a running command is exec of the instruction that the selected engine's byte decodes to at MODE and its slot. At slot 0 the byte is read and latched first; at slots 1 and 2 it is the latched one. -/
def Obligations.StepRunsTheDecodedInstruction : Prop :=
  ∀ (s : State) (b : Bound) (c : Nat) (e : Engine) (v : Byte) (i : Instr),
    s.rom.conforms = true → s.status = .busy → s.cmd = some b → s.selected = some (c, e) →
    decode .variant ⟨b.mode, e.cur.l⟩ [v] = .ok (i, []) → i.wellFormed ⟨b.mode, e.cur.l⟩ = true →
    (e.cur.l = .s0 → memRead b (addr b c e.cur.f e.cur.k) = .ok v →
      step s = exec i (s.setEngine c { e with latch := some v })) ∧
    (e.cur.l ≠ .s0 → e.latch = some v → step s = exec i s)

/-- 20 R37; 60 R98, R100 (the abort branch: log 18; in one step: log 1; the host's list: log 6): a failing read aborts the command as OutOfRangeAccess: STATUS and ERR_CODE are written, everything of the command is discarded, Err is returned. -/
def Obligations.FailedFetchAbortsTheCommand : Prop :=
  ∀ (s : State) (b : Bound) (c : Nat) (e : Engine),
    s.rom.conforms = true → s.status = .busy → s.cmd = some b → s.selected = some (c, e) → e.cur.l = .s0 →
    ¬ (0 ≤ addr b c e.cur.f e.cur.k ∧ addr b c e.cur.f e.cur.k < b.bufLen) →
    ∃ t, step s = .next t ∧ t.status = .error ∧ t.errCode = .outOfRangeAccess ∧ t.cmd = none ∧ t.engines = [] ∧
      t.result = some (.err (.offsetOutOfRange (addr b c e.cur.f e.cur.k))) ∧ t.rom = s.rom ∧ t.requests = s.requests

/-- 10 R36 (the decision 92 D13; log 7): at slots 1 and 2 a latch with no value faults. -/
def Obligations.EmptyLatchFaults : Prop :=
  ∀ (s : State) (b : Bound) (c : Nat) (e : Engine),
    s.rom.conforms = true → s.status = .busy → s.cmd = some b → s.selected = some (c, e) → e.cur.l ≠ .s0 → e.latch = none →
    step s = .fault .latchEmpty

/-- 10 R27 (the decision 92 D6, log 17): conforms is the constraints (a), (b), (c), and an instance that breaks any of them is refused. -/
def Obligations.NonConformingTablesAreRefused : Prop :=
  ∀ s : State,
    (s.rom.conforms = true ↔
      (∀ r j : Nat, ∀ hr : r < 128, ∀ hj : j < 4, 0 ≤ (s.rom.wst[r][j]).toInt ∧ (s.rom.wst[r][j]).toInt ≤ 32767) ∧
      (∀ r j : Nat, ∀ hr : r < 128, ∀ hj : j < 2, 0 ≤ (s.rom.nst[r][j]).toInt ∧ (s.rom.nst[r][j]).toInt ≤ 32767) ∧
      (∀ v : Nat, ∀ hv : v < 8, -32768 ≤ (s.rom.wdt[v]).toInt ∧ (s.rom.wdt[v]).toInt ≤ 1023) ∧
      (∀ v : Nat, ∀ hv : v < 4, -32768 ≤ (s.rom.ndt[v]).toInt ∧ (s.rom.ndt[v]).toInt ≤ 1023) ∧
      (s.rom.wst[0][0]).toInt = 37 ∧ (s.rom.wdt[0]).toInt = -13) ∧
    (step s = .refused .tablesNotConforming ↔ s.rom.conforms = false)

/-- 70 R107, 10 R36 (the decision 92 D13): power-on with any TABLES instance. (The reset's own instance is log 2's choice; the host's list and the schedule start empty, logs 5 and 6.) -/
def Obligations.PowerOnState : Prop :=
  ∀ rom : Tables,
    (State.powerOn rom).status.code = 0 ∧ (State.powerOn rom).errCode.code = 0 ∧ (State.powerOn rom).cmd = none ∧
    (State.powerOn rom).engines = [] ∧ (State.powerOn rom).result = none ∧ (State.powerOn rom).rom = rom ∧
    (State.powerOn rom).requests = [] ∧ (State.powerOn rom).turns = [] ∧
    State.reset = State.powerOn romInstance ∧ romInstance.conforms = true

/-- 70 R107 (the host's list and the step that changes nothing: logs 6 and 15): the block does nothing until the host issues DECODE. -/
def Obligations.MachineWithoutCommandStaysAsItIs : Prop :=
  ∀ s : State, s.rom.conforms = true → s.status ≠ .busy → s.requests = [] → step s = .next s

/-- 42 R76, R78 (the check is the first by the decision 92 D4) and 60 R96, R98 (the abort; its codes by the decision 92 D3; in one step: log 1; the host's list: log 6): illegal counts abort as InvalidParameters, whatever the buffer. Legal counts, FRAME_COUNT = 0 among them, do not. -/
def Obligations.IllegalCountsAbortAsInvalidParameters : Prop :=
  ∀ (s : State) (cmd : Command) (rest : List Command), s.rom.conforms = true → s.status ≠ .busy → s.requests = cmd :: rest →
    (cmd.channelCount ≤ 0 ∨ cmd.frameCount < 0 →
      ∃ t, step s = .next t ∧ t.status.code = 3 ∧ t.errCode.code = 2 ∧ t.cmd = none ∧ t.engines = [] ∧
        t.result = some (.err (.invalidParameters cmd.channelCount cmd.frameCount)) ∧ t.rom = s.rom ∧ t.requests = rest) ∧
    (1 ≤ cmd.channelCount → 0 ≤ cmd.frameCount →
      ∃ t, step s = .next t ∧ t.errCode.code ≠ 2 ∧ ∀ c f : Int, t.result ≠ some (.err (.invalidParameters c f)))

/-- 42 R77, R78; 60 R98 (the order of the checks is the decision 92 D4, the codes D3; in one step: log 1; the host's list: log 6): legal counts with a buffer shorter than required abort as OutOfRangeAccess. -/
def Obligations.ShortBufferAbortsAsOutOfRangeAccess : Prop :=
  ∀ (s : State) (cmd : Command) (rest : List Command), s.rom.conforms = true → s.status ≠ .busy → s.requests = cmd :: rest →
    1 ≤ cmd.channelCount → 0 ≤ cmd.frameCount →
    (cmd.buffer.length : Int) < cmd.channelCount * cmd.frameCount * bytesPerFrame cmd.mode →
    ∃ t, step s = .next t ∧ t.status.code = 3 ∧ t.errCode.code = 1 ∧ t.cmd = none ∧ t.engines = [] ∧
      t.result = some (.err (.bufferTooShort (cmd.channelCount * cmd.frameCount * bytesPerFrame cmd.mode) cmd.buffer.length)) ∧
      t.rom = s.rom ∧ t.requests = rest

/-- 70 R108; 42 R75, R79; 10 R32, R36 (that one step does it is log 1's choice, that the command leaves the host's list log 6's, that the schedule stays log 5's): a legal command is latched, STATUS is BUSY, ERR_CODE 0, and every channel gets registers 0, an empty output, the cursor (c, 0, 0, 0) and no latched byte, whatever an earlier command left. -/
def Obligations.LegalCommandAllocatesFreshChannels : Prop :=
  ∀ (s : State) (cmd : Command) (rest : List Command), s.rom.conforms = true → s.status ≠ .busy → s.requests = cmd :: rest →
    cmd.Legal →
    ∃ t b, step s = .next t ∧ t.status.code = 1 ∧ t.errCode.code = 0 ∧ t.cmd = some b ∧ b.mode = cmd.mode ∧
      b.frameCount = cmd.frameCount ∧ b.channelCount = cmd.channelCount ∧ b.bufLen = cmd.buffer.length ∧
      (∀ n : Nat, ∀ h : n < cmd.buffer.length, memRead b n = .ok cmd.buffer[n]) ∧
      (t.engines.length : Int) = cmd.channelCount ∧
      (∀ (c : Nat) (e : Engine), t.engines[c]? = some e →
        e.cs.index = 0 ∧ e.cs.factor = 0 ∧ e.cs.prev2 = 0 ∧ e.cs.previous = 0 ∧ e.cs.level = 0 ∧
        e.cur = ⟨0, 0, .s0⟩ ∧ e.latch = none ∧ e.out = []) ∧
      t.rom = s.rom ∧ t.requests = rest ∧ t.turns = s.turns

/-- 42 R91: when every channel is complete (42 R80; its frame component at least FRAME_COUNT, log 16's reading of R80's equality; in one step: log 1) the command returns the outputs in channel order, STATUS is DONE and ERR_CODE 0, and ChannelState, cursors and latches are discarded. -/
def Obligations.CompletionReturnsTheOutputs : Prop :=
  ∀ (s : State) (b : Bound), s.rom.conforms = true → s.status = .busy → s.cmd = some b →
    (∀ e ∈ s.engines, b.frameCount ≤ e.cur.f) →
    ∃ t, step s = .next t ∧ t.status.code = 2 ∧ t.errCode.code = 0 ∧ t.engines = [] ∧
      t.result = some (.ok (s.engines.map fun e => e.out)) ∧ t.rom = s.rom ∧ t.requests = s.requests

/-- 42 R80, R82; 70 R110 (the number of steps, a slot 0 step with its fetch, is log 1's choice): three steps of the sequential schedule from the start of a byte do what its byte format does in one move (log 10). -/
def Obligations.ThreeStepsRunOneCodedByte : Prop :=
  ∀ (s : State) (b : Bound) (c : Nat) (e : Engine) (v : Byte),
    s.rom.conforms = true → s.status = .busy → s.cmd = some b → s.turns = [] → s.selected = some (c, e) →
    e.cur.l = .s0 → memRead b (addr b c e.cur.f e.cur.k) = .ok v → (b.mode = .wide → e.cs.historyOk) →
    ∃ t, s.after 3 = some t ∧ exec (decodeByteFormat b.mode v) (s.setEngine c { e with latch := some v }) = .next t

/-! ## Invariants -/

/-- Power-on satisfies the machine's invariant, with any TABLES instance. -/
def Obligations.PowerOnSatisfiesTheInvariant : Prop := ∀ rom : Tables, (State.powerOn rom).Inv

/-- Every step keeps the machine's invariant (10 R20 to R22, R29, R30, R32, R35, R36; 42 R90; canonical BUF). -/
def Obligations.EveryStepKeepsTheInvariant : Prop :=
  ∀ s t : State, s.Inv → step s = .next t → t.Inv

/-- 41 R74, 60 R100, R101: a machine in the invariant with a conforming ROM never faults and is never refused: every step answers a next state. -/
def Obligations.InvariantMachineAlwaysSteps : Prop :=
  ∀ s : State, s.Inv → s.rom.conforms = true → ∃ t, step s = .next t

/-- 10 R32: in the invariant ERR_CODE is not 0 exactly when STATUS = ERROR. -/
def Obligations.ErrorCodeIsZeroOutsideError : Prop :=
  ∀ s : State, s.Inv → (s.errCode.code ≠ 0 ↔ s.status.code = 3)

/-- 20 R48, R38, R44; 10 R14 to R16: no step writes the ROM, and while a command runs no step changes its registers or any byte of its buffer, but the one that ends it. -/
def Obligations.RomAndCommandAreConstant : Prop :=
  ∀ s t : State, step s = .next t → t.rom = s.rom ∧
    (s.status = .busy → t.cmd = s.cmd ∨ (t.cmd = none ∧ t.status ≠ .busy))

/-! ## Whole commands -/

/-- 42 R80, R83, R91 (with the lane stride of 92 D5, log 3, and the shifts of 92 D8, log 4; a command runs as logs 1, 5 and 6 say): DECODE of a legal command, from any machine that is not BUSY and under any schedule, returns for each channel the output of the loop nest. -/
def Obligations.DecodeRunsTheLoopNest : Prop :=
  ∀ (s : State) (turns : List Nat) (cmd : Command), s.Inv → s.rom.conforms = true → s.status ≠ .busy → cmd.Legal →
    ∃ outs, s.decodeFrom turns cmd = some (.ok outs) ∧ outs.length = cmd.channelCount.toNat ∧
      ∀ (ch : Nat) (out : List Word), outs[ch]? = some out →
        ∃ cs, referenceChannel s.rom cmd ch (slotsPerChannel cmd.mode cmd.frameCount) = .ok (cs, out)

/-- 42 R92 (a command runs as logs 1, 5 and 6 say): the output length law: 9·FRAME_COUNT samples per channel in Narrow, 36·FRAME_COUNT in Wide. -/
def Obligations.OutputLengthLaw : Prop :=
  ∀ (s : State) (turns : List Nat) (cmd : Command), s.Inv → s.rom.conforms = true → s.status ≠ .busy → cmd.Legal →
    ∃ outs, s.decodeFrom turns cmd = some (.ok outs) ∧ (outs.length : Int) = cmd.channelCount ∧
      ∀ out ∈ outs, (cmd.mode = .narrow → (out.length : Int) = 9 * cmd.frameCount) ∧
        (cmd.mode = .wide → (out.length : Int) = 36 * cmd.frameCount)

/-- 60 R105, 20 R45 (derived by the spec; the decision 92 D14, log 5; the number of steps: log 1): every schedule of the engines gives the same result, from any point of a running command. -/
def Obligations.EveryScheduleGivesTheSameResult : Prop :=
  ∀ (s : State) (turns : List Nat), s.Inv → s.rom.conforms = true → s.status = .busy →
    ∃ n t u, s.after n = some t ∧ { s with turns := turns }.after n = some u ∧
      t.status = .done ∧ u.status = .done ∧ t.result = u.result

/-- 20 R43 (derived by the spec, from the lane stride of log 3; a command runs as logs 1, 5 and 6 say): the bytes at offsets from required on do not affect the result: a legal command whose buffer is cut there, and continued by any other tail, returns the same. -/
def Obligations.TailBytesDoNotAffectTheResult : Prop :=
  ∀ (s : State) (turns turns' : List Nat) (cmd : Command) (tail : List Byte), s.Inv → s.rom.conforms = true → s.status ≠ .busy →
    cmd.Legal →
    ∃ r, s.decodeFrom turns cmd = some r ∧
      s.decodeFrom turns' { cmd with
        buffer := cmd.buffer.take (cmd.channelCount * cmd.frameCount * bytesPerFrame cmd.mode).toNat ++ tail } = some r

/-- 42 R93 (derived by the spec, from the lane stride of log 3; a command runs as logs 1, 5 and 6 say): channel independence. Decoding channel ch's lane alone gives channel ch's output of the whole command. -/
def Obligations.ChannelsAreIndependent : Prop :=
  ∀ (s : State) (turns turns' : List Nat) (cmd : Command) (ch : Nat), s.Inv → s.rom.conforms = true → s.status ≠ .busy →
    cmd.Legal → (ch : Int) < cmd.channelCount →
    ∃ outs out, s.decodeFrom turns cmd = some (.ok outs) ∧ outs[ch]? = some out ∧
      s.decodeFrom turns' (cmd.lane ch) = some (.ok [out])

/-- 42 R94, R95 (a command runs as logs 1, 5 and 6 say): a command's result depends on the command and the ROM alone, not on what earlier commands left or on the schedule; it always returns one. -/
def Obligations.CommandsAreIndependentAndDeterministic : Prop :=
  ∀ (s s' : State) (turns turns' : List Nat) (cmd : Command), s.Inv → s'.Inv → s.rom.conforms = true → s'.rom = s.rom →
    s.status ≠ .busy → s'.status ≠ .busy →
    ∃ r, s.decodeFrom turns cmd = some r ∧ s'.decodeFrom turns' cmd = some r
end

