-- ==== Sys2Proof/Laws/Arithmetic.lean ====
section
/-! SUPPORT. The laws of the integer primitives: shifts as divisions, int16 stores, the clip, the sign test, reorderBytes. -/

namespace Sys2Proof.Machine

@[simp] theorem sar_1 (v : Int) : sar v 1 = v / 2 := by simp [sar]
@[simp] theorem sar_2 (v : Int) : sar v 2 = v / 4 := by simp [sar]
@[simp] theorem sar_3 (v : Int) : sar v 3 = v / 8 := by simp [sar]
@[simp] theorem sar_5 (v : Int) : sar v 5 = v / 32 := by simp [sar]
@[simp] theorem sar_15 (v : Int) : sar v 15 = v / 32768 := by simp [sar]

/-- A register's value is in int16 (00 R7). -/
theorem Word.toInt_range (w : Word) : -32768 ≤ w.toInt ∧ w.toInt ≤ 32767 := by
  have h1 := BitVec.le_toInt w
  have h2 := BitVec.toInt_lt (x := w)
  norm_num at h1 h2
  omega

theorem isInt16_iff {v : Int} : isInt16 v = true ↔ -32768 ≤ v ∧ v ≤ 32767 := by simp [isInt16]

/-- A value in int16 is the value of the word that holds it. -/
theorem toInt_ofInt16 {v : Int} (h : -32768 ≤ v ∧ v ≤ 32767) : (BitVec.ofInt 16 v).toInt = v := by
  rw [BitVec.toInt_ofInt]
  simp only [Int.bmod]
  omega

/-- A store of a value in int16 gives the word of that value. -/
theorem storeInt16_ok {v : Int} (h : -32768 ≤ v ∧ v ≤ 32767) : storeInt16 v = .ok (BitVec.ofInt 16 v) := by
  simp [storeInt16, isInt16_iff.2 h]

/-- A store of a value outside int16 faults (00 R7). -/
theorem storeInt16_fault {v : Int} (h : ¬ (-32768 ≤ v ∧ v ≤ 32767)) : storeInt16 v = .error .storeOutOfInt16 := by
  have : isInt16 v = false := by rw [Bool.eq_false_iff, ne_eq, isInt16_iff]; exact h
  simp [storeInt16, this]

theorem sampleOf_ok {v : Int} (h : -32768 ≤ v ∧ v ≤ 32767) : sampleOf v = .ok (reorderBytes (BitVec.ofInt 16 v)) := by
  simp [sampleOf, isInt16_iff.2 h]

theorem sampleOf_fault {v : Int} (h : ¬ (-32768 ≤ v ∧ v ≤ 32767)) : sampleOf v = .error .reorderOutOfInt16 := by
  have : isInt16 v = false := by rw [Bool.eq_false_iff, ne_eq, isInt16_iff]; exact h
  simp [sampleOf, this]

/-- The clip's result is in int16 (41 R66). -/
theorem asymmetricClip_range (n : Int) : -32768 ≤ asymmetricClip n ∧ asymmetricClip n ≤ 32767 := by
  unfold asymmetricClip; split <;> [skip; split] <;> omega

/-- The sign test on words is the sign test on their values (00 R9). -/
theorem signsAgree_iff (x y : Word) : signsAgree x y = true ↔ (0 ≤ x.toInt ↔ 0 ≤ y.toInt) := by
  have key : ∀ z : Word, (0 ≤ z.toInt) ↔ z.msb = false := fun z => by
    rw [BitVec.msb_eq_toInt]; simp
  simp only [signsAgree, decide_eq_true_eq, key, BitVec.msb_xor]
  cases x.msb <;> cases y.msb <;> simp

end Sys2Proof.Machine
end

