-- ==== Sys2Proof/Laws/SlotOperation.lean ====
section
/-! SUPPORT. One lemma per shared operation of a slot operation: the step quantizer, the two synthesizers, and the slot operation of an engine in both modes. -/

namespace Sys2Proof.Machine

/-! ## The table families of a conforming ROM (10 R27) -/

theorem Family.step_nonneg {s : Nat} {t : Family s} (h : t.stepsOk = true) (r : Nat) (j : Nat) (hr : r < 128) (hj : j < s) :
    0 ≤ (t.steps[r][j]).toInt := by
  simp only [Family.stepsOk, List.all_eq_true, decide_eq_true_eq, Vector.mem_toList_iff] at h
  exact h _ (Vector.getElem_mem hr) _ (Vector.getElem_mem hj)

theorem Family.delta_le {s : Nat} {t : Family s} (h : t.deltasOk = true) (v : Nat) (hv : v < 2 * s) :
    (t.deltas[v]).toInt ≤ 1023 := by
  simp only [Family.deltasOk, List.all_eq_true, decide_eq_true_eq, Vector.mem_toList_iff] at h
  exact h _ (Vector.getElem_mem hv)

theorem Tables.conforms_wideDeltas {t : Tables} (h : t.conforms = true) : t.wideStride.deltasOk = true := by
  simp only [Tables.conforms, Bool.and_eq_true] at h; exact h.1.1.2

theorem Tables.conforms_narrowDeltas {t : Tables} (h : t.conforms = true) : t.narrowStride.deltasOk = true := by
  simp only [Tables.conforms, Bool.and_eq_true] at h; exact h.1.2

theorem Tables.conforms_wideSteps {t : Tables} (h : t.conforms = true) : t.wideStride.stepsOk = true := by
  simp only [Tables.conforms, Bool.and_eq_true] at h; exact h.1.1.1.1

theorem Tables.conforms_narrowSteps {t : Tables} (h : t.conforms = true) : t.narrowStride.stepsOk = true := by
  simp only [Tables.conforms, Bool.and_eq_true] at h; exact h.1.1.1.2

/-! ## StepDecoder -/

theorem nextIndex_eq (i d : Int) : nextIndex i d = max (i + d - i / 32) 0 := by
  simp only [nextIndex, sar_5]
  by_cases h : i + d - i / 32 < 0
  · rw [if_pos h]; omega
  · rw [if_neg h]; omega

/-- The next index is in int16 for every int16 index and every conforming delta (40 R64). -/
theorem nextIndex_range {i d : Int} (hi : -32768 ≤ i ∧ i ≤ 32767) (hd : d ≤ 1023) : 0 ≤ nextIndex i d ∧ nextIndex i d ≤ 32767 := by
  rw [nextIndex_eq]; omega

theorem branchStep_toInt (br : Branch) (w : Word) :
    (branchStep br w).toInt = match br with | .magnitude => w.toInt | .negative => -1 - w.toInt := by
  cases br with
  | magnitude => rfl
  | negative => have := Word.toInt_range w; exact toInt_ofInt16 (by omega)

/-- stepWith never faults under conforming deltas; it writes index only (40 R63). -/
theorem stepWith_ok {s : Nat} {t : Family s} (h : t.deltasOk = true) (br : Branch) (j : Fin s) (d : Fin (2 * s)) (cs : ChannelState) :
    ∃ w : Word, stepWith t br j d cs = .ok ({ cs with index := w }, branchStep br t.steps[(rowOf cs.index).val][j.val]) ∧
      w.toInt = max (cs.index.toInt + (t.deltas[d.val]).toInt - cs.index.toInt / 32) 0 := by
  have hr := nextIndex_range (Word.toInt_range cs.index) (Family.delta_le h d.val d.isLt)
  refine ⟨BitVec.ofInt 16 (nextIndex cs.index.toInt (t.deltas[d.val]).toInt), ?_, ?_⟩
  · have e := storeInt16_ok (v := nextIndex cs.index.toInt (t.deltas[d.val]).toInt) (by omega)
    simp only [stepWith, advanceIndex, e, Except.map]
  · rw [toInt_ofInt16 (by omega), nextIndex_eq]

/-- decodeStep (40 R63): the step's value and the new index, in integers; nothing else is written. -/
theorem decodeStep_ok {s : Nat} {t : Family s} (h : t.deltasOk = true) (cs : ChannelState) (v : Fin (2 * s)) :
    ∃ w step : Word, decodeStep t cs v = .ok ({ cs with index := w }, step) ∧
      step.toInt = stepValue t cs.index v ∧ w.toInt = indexAfter t cs.index v := by
  obtain ⟨w, hw, hi⟩ := stepWith_ok h (branchOf s v) (columnOf s v) v cs
  refine ⟨w, _, hw, ?_, hi⟩
  rw [branchStep_toInt]
  by_cases hv : v.val < s <;> simp [branchOf, columnOf, stepValue, hv]

/-! ## The synthesizers -/

theorem clippedSum_eq (cs : ChannelState) (step : Word) : clippedSum cs step = currentOf step.toInt cs.level.toInt := rfl

theorem currentOf_range (a b : Int) : -32768 ≤ currentOf a b ∧ currentOf a b ≤ 32767 := asymmetricClip_range _

theorem leak_range {c : Int} (h : -32768 ≤ c ∧ c ≤ 32767) : -28672 ≤ leak c ∧ leak c ≤ 28672 := by
  simp only [leak, sar_3]; omega

/-- narrowSynth never faults (41 R68): one sample, and level the only register written. -/
theorem narrowSynth_ok (cs : ChannelState) (step : Word) :
    narrowSynth cs step =
      .ok ({ cs with level := BitVec.ofInt 16 (leak (currentOf step.toInt cs.level.toInt)) },
        [reorderBytes (BitVec.ofInt 16 (currentOf step.toInt cs.level.toInt))]) := by
  have hc := currentOf_range step.toInt cs.level.toInt
  have hl := leak_range hc
  simp only [narrowSynth, clippedSum_eq, storeInt16_ok (show -32768 ≤ leak (currentOf step.toInt cs.level.toInt) ∧ _ by omega),
    sampleOf_ok hc]
  rfl

theorem adaptedFactor_eq (cs : ChannelState) (step : Word) : adaptedFactor cs step = factorAfter cs step.toInt := by
  simp only [adaptedFactor, factorAfter, signsAgree_iff]

theorem factorAfter_range (cs : ChannelState) (step : Int) : -32767 ≤ factorAfter cs step ∧ factorAfter cs step ≤ 32767 := by
  have := Word.toInt_range cs.factor
  unfold factorAfter; split <;> omega

/-- The Wide level is in [-32767, 32767] (41 R70, R74). -/
theorem wideLevel_range {c f : Int} (hc : -32768 ≤ c ∧ c ≤ 32767) (hf : -32767 ≤ f ∧ f ≤ 32767) :
    -32767 ≤ c * f / 32768 ∧ c * f / 32768 ≤ 32767 := by
  have h1 : c * f ≤ 32768 * 32767 := by nlinarith [mul_le_mul (show |c| ≤ 32768 by rw [abs_le]; omega) (show |f| ≤ 32767 by rw [abs_le]; omega) (abs_nonneg f) (by norm_num : (0:Int) ≤ 32768), abs_mul c f, le_abs_self (c * f)]
  have h2 : -(32768 * 32767) ≤ c * f := by nlinarith [mul_le_mul (show |c| ≤ 32768 by rw [abs_le]; omega) (show |f| ≤ 32767 by rw [abs_le]; omega) (abs_nonneg f) (by norm_num : (0:Int) ≤ 32768), abs_mul c f, neg_abs_le (c * f)]
  omega

theorem halfOf_range (cs : ChannelState) (step : Int) : -16384 ≤ halfOf cs step ∧ halfOf cs step ≤ 16383 := by
  have := currentOf_range step cs.level.toInt
  unfold halfOf; omega

theorem wideArgument1_range {cs : ChannelState} (h : cs.historyOk) (step : Int) :
    -32768 ≤ wideArgument1 cs step ∧ wideArgument1 cs step ≤ 32767 := by
  have := halfOf_range cs step
  simp only [ChannelState.historyOk] at h
  simp only [wideArgument1, interpolationOf]; omega

theorem wideArgument2_range {cs : ChannelState} (h : cs.historyOk) (step : Int) :
    -32768 ≤ wideArgument2 cs step ∧ wideArgument2 cs step ≤ 32767 := by
  have := halfOf_range cs step
  simp only [ChannelState.historyOk] at h
  simp only [wideArgument2, interpolationOf]; omega

/-- Everything wideSynth can do, as its three outcomes by the two reorderBytes arguments (41 R73, 92 D7). -/
theorem wideSynth_eq (cs : ChannelState) (step : Word) :
    wideSynth cs step = (do
      let s1 ← sampleOf (wideArgument1 cs step.toInt)
      let s2 ← sampleOf (wideArgument2 cs step.toInt)
      return ({ cs with
        factor := BitVec.ofInt 16 (factorAfter cs step.toInt)
        level := BitVec.ofInt 16 (currentOf step.toInt cs.level.toInt * factorAfter cs step.toInt / 32768)
        prev2 := cs.previous
        previous := BitVec.ofInt 16 (halfOf cs step.toInt) }, [s1, s2])) := by
  have hc := currentOf_range step.toInt cs.level.toInt
  have hf := factorAfter_range cs step.toInt
  have hl := wideLevel_range hc hf
  have hh := halfOf_range cs step.toInt
  have e1 : storeInt16 (factorAfter cs step.toInt) = .ok _ := storeInt16_ok (by omega)
  have e2 : storeInt16 (currentOf step.toInt cs.level.toInt * factorAfter cs step.toInt / 32768) = .ok _ := storeInt16_ok (by omega)
  have e3 : storeInt16 (halfOf cs step.toInt) = .ok _ := storeInt16_ok (by omega)
  have h1 : currentOf step.toInt cs.level.toInt / 2 = halfOf cs step.toInt := rfl
  have h2 : (cs.prev2.toInt - halfOf cs step.toInt) / 4 = interpolationOf cs step.toInt := rfl
  have h3 : cs.previous.toInt + cs.prev2.toInt - interpolationOf cs step.toInt = wideArgument1 cs step.toInt := rfl
  have h4 : cs.previous.toInt + halfOf cs step.toInt + interpolationOf cs step.toInt = wideArgument2 cs step.toInt := rfl
  simp only [wideSynth, adaptedFactor_eq, clippedSum_eq, sar_15, sar_1, sar_2, h1, h2, h3, h4, e1, e2, e3, bind, Except.bind]

theorem ChannelState.historyOk.arguments {cs : ChannelState} (h : cs.historyOk) (step : Int) : wideArgumentsOk cs step :=
  ⟨(wideArgument1_range h step).1, (wideArgument1_range h step).2, (wideArgument2_range h step).1, (wideArgument2_range h step).2⟩

/-- wideSynth does not fault while its reorderBytes arguments are in int16, and is the synthesis of 41 R73. -/
theorem wideSynth_ok {cs : ChannelState} {step : Word} (h : wideArgumentsOk cs step.toInt) :
    ∃ cs' samples, wideSynth cs step = .ok (cs', samples) ∧ WideSynthesis step.toInt cs cs' samples := by
  obtain ⟨h1, h2, h3, h4⟩ := h
  refine ⟨_, _, by rw [wideSynth_eq, sampleOf_ok ⟨h1, h2⟩, sampleOf_ok ⟨h3, h4⟩]; rfl, ?_⟩
  have hc := currentOf_range step.toInt cs.level.toInt
  have hf := factorAfter_range cs step.toInt
  have hl := wideLevel_range hc hf
  have hh := halfOf_range cs step.toInt
  exact ⟨rfl, toInt_ofInt16 (by omega), toInt_ofInt16 (by omega), rfl, toInt_ofInt16 (by omega), rfl⟩

/-- wideSynth stops when one of its reorderBytes arguments is outside int16 (92 D7). -/
theorem wideSynth_fault {cs : ChannelState} {step : Word} (h : ¬ wideArgumentsOk cs step.toInt) :
    wideSynth cs step = .error .reorderOutOfInt16 := by
  rw [wideSynth_eq]
  by_cases h1 : -32768 ≤ wideArgument1 cs step.toInt ∧ wideArgument1 cs step.toInt ≤ 32767
  · have h2 : ¬ (-32768 ≤ wideArgument2 cs step.toInt ∧ wideArgument2 cs step.toInt ≤ 32767) := fun h2 =>
      h ⟨h1.1, h1.2, h2.1, h2.2⟩
    rw [sampleOf_ok h1, sampleOf_fault h2]; rfl
  · rw [sampleOf_fault h1]; rfl

/-- The history stays in its range over a Wide synthesis (10 R22). -/
theorem WideSynthesis.historyOk {step : Int} {cs cs' : ChannelState} {samples : List Word} (w : WideSynthesis step cs cs' samples)
    (h : cs.historyOk) : cs'.historyOk := by
  have hh := halfOf_range cs step
  simp only [ChannelState.historyOk, w.prev2, w.previous] at h ⊢
  omega

/-! ## The slot operation of an engine -/

/-- stepWith, when it answers, has written index only (40 R63). -/
theorem stepWith_frame {s : Nat} {t : Family s} {br : Branch} {j : Fin s} {d : Fin (2 * s)} {cs cs' : ChannelState} {step : Word}
    (h : stepWith t br j d cs = .ok (cs', step)) : cs' = { cs with index := cs'.index } := by
  unfold stepWith advanceIndex at h
  cases hx : storeInt16 (nextIndex cs.index.toInt (t.deltas[d.val]).toInt) with
  | error f => simp [hx, Except.map] at h
  | ok w =>
    simp only [hx, Except.map, Except.ok.injEq, Prod.mk.injEq] at h
    obtain ⟨rfl, -⟩ := h
    rfl

/-- emit, when it answers: the synthesizer's registers and samples, the samples appended, the cursor advanced, the latch kept (42 R83, R90). -/
theorem emit_inv {b : Bound} {m : Mode} {e e' : Engine} {p : ChannelState × Word} (h : emit b m e p = .ok e') :
    ∃ cs samples, synthesize m p.1 p.2 = .ok (cs, samples) ∧
      e' = { e with cs := cs, out := e.out ++ samples, cur := e.cur.advance (bytesPerFrame b.mode) } := by
  unfold emit at h
  cases hs : synthesize m p.1 p.2 with
  | error f => simp [hs, bind, Except.bind] at h
  | ok q =>
    simp only [hs, bind, Except.bind] at h
    cases h
    exact ⟨q.1, q.2, rfl, rfl⟩

/-- slotOp, when it answers, is a decodeStep that answered and an emit that answered (42 R83). -/
theorem slotOp_inv {s : Nat} {t : Family s} {b : Bound} {m : Mode} {v : Fin (2 * s)} {e e' : Engine}
    (h : slotOp t b m v e = .ok e') : ∃ p, decodeStep t e.cs v = .ok p ∧ emit b m e p = .ok e' := by
  unfold slotOp at h
  cases hs : decodeStep t e.cs v with
  | error f => simp [hs, bind, Except.bind] at h
  | ok p => exact ⟨p, rfl, by simpa [hs, bind, Except.bind] using h⟩

/-- A variant with the branch, column and delta index of codedValue v is the slot operation with v (30 R54). -/
theorem variantOp_eq_slotOp {s : Nat} (t : Family s) (b : Bound) (m : Mode) (v : Fin (2 * s)) (e : Engine) :
    variantOp t b m (branchOf s v) (columnOf s v) v e = slotOp t b m v e := rfl

/-- A Narrow slot operation never faults under conforming deltas, and has its effect (42 R84 to R86). -/
theorem slotOp_narrow {s : Nat} {t : Family s} (h : t.deltasOk = true) (b : Bound) (v : Fin (2 * s)) (e : Engine) :
    ∃ e', slotOp t b .narrow v e = .ok e' ∧ NarrowEffect t v (bytesPerFrame b.mode) e e' := by
  obtain ⟨w, step, hd, hs, hi⟩ := decodeStep_ok h e.cs v
  refine ⟨_, by simp only [slotOp, hd, emit, synthesize, narrowSynth_ok, bind, Except.bind]; rfl, ?_⟩
  have hl := leak_range (currentOf_range step.toInt e.cs.level.toInt)
  refine ⟨hi, ?_, rfl, rfl, rfl, ?_, rfl, rfl⟩
  · rw [← hs]; exact toInt_ofInt16 (by omega)
  · rw [← hs]

/-- A Wide slot operation does not fault under conforming deltas while its reorderBytes arguments are in int16, and has its effect (42 R87 to R89). -/
theorem slotOp_wide {s : Nat} {t : Family s} (h : t.deltasOk = true) (b : Bound) (v : Fin (2 * s)) (e : Engine)
    (ha : wideArgumentsOk e.cs (stepValue t e.cs.index v)) :
    ∃ e', slotOp t b .wide v e = .ok e' ∧ WideEffect t v (bytesPerFrame b.mode) e e' := by
  obtain ⟨w, step, hd, hs, hi⟩ := decodeStep_ok h e.cs v
  have ha' : wideArgumentsOk { e.cs with index := w } step.toInt := by rw [hs]; exact ha
  obtain ⟨cs', samples, hw, hsyn⟩ := wideSynth_ok ha'
  refine ⟨_, by simp only [slotOp, hd, emit, synthesize, hw, bind, Except.bind]; rfl, ?_⟩
  refine ⟨?_, ⟨samples, ?_, rfl⟩, rfl, rfl⟩
  · rw [← hi]; exact congrArg BitVec.toInt hsyn.index
  · rw [← hs]
    exact ⟨rfl, hsyn.factor, hsyn.level, hsyn.prev2, hsyn.previous, hsyn.samples⟩

/-- A Wide slot operation stops under conforming deltas when a reorderBytes argument is outside int16 (92 D7). -/
theorem slotOp_wide_fault {s : Nat} {t : Family s} (h : t.deltasOk = true) (b : Bound) (v : Fin (2 * s)) (e : Engine)
    (ha : ¬ wideArgumentsOk e.cs (stepValue t e.cs.index v)) : slotOp t b .wide v e = .error .reorderOutOfInt16 := by
  obtain ⟨w, step, hd, hs, hi⟩ := decodeStep_ok h e.cs v
  have ha' : ¬ wideArgumentsOk { e.cs with index := w } step.toInt := by rw [hs]; exact ha
  simp only [slotOp, hd, emit, synthesize, wideSynth_fault ha', bind, Except.bind]

/-- The history stays in its range over a Wide slot operation (10 R22). -/
theorem WideEffect.historyOk {s : Nat} {t : Family s} {v : Fin (2 * s)} {bpf : Nat} {e e' : Engine}
    (w : WideEffect t v bpf e e') (h : e.cs.historyOk) : e'.cs.historyOk := by
  obtain ⟨_, hsyn, _⟩ := w.synth
  exact hsyn.historyOk h

/-- Two Wide slot operations leave the history in its range, whatever it was: both registers then hold halved currents (41 R71, R72). -/
theorem WideEffect.historyOk_of_two {s s' : Nat} {t : Family s} {t' : Family s'} {v : Fin (2 * s)} {v' : Fin (2 * s')} {bpf : Nat}
    {e e₁ e₂ : Engine} (w : WideEffect t v bpf e e₁) (w' : WideEffect t' v' bpf e₁ e₂) : e₂.cs.historyOk := by
  obtain ⟨_, first, _⟩ := w.synth
  obtain ⟨_, second, _⟩ := w'.synth
  have older : e₂.cs.prev2.toInt = halfOf e.cs (stepValue t e.cs.index v) := by rw [← first.previous]; exact congrArg _ second.prev2
  have newer : e₂.cs.previous.toInt = halfOf e₁.cs (stepValue t' e₁.cs.index v') := second.previous
  have := halfOf_range e.cs (stepValue t e.cs.index v)
  have := halfOf_range e₁.cs (stepValue t' e₁.cs.index v')
  simp only [ChannelState.historyOk, older, newer]
  omega

end Sys2Proof.Machine
end

