-- ==== Sys2Proof/Laws/State.lean ====
section
/-! SUPPORT. One lemma per field for every update of State, and the fields of the power-on state. -/

namespace Sys2Proof.Machine

variable (s : State) (c : Nat) (e : Engine) (er : Error) (cmd : Command) (rom : Tables)

@[simp] theorem State.setEngine_rom : (s.setEngine c e).rom = s.rom := rfl
@[simp] theorem State.setEngine_status : (s.setEngine c e).status = s.status := rfl
@[simp] theorem State.setEngine_errCode : (s.setEngine c e).errCode = s.errCode := rfl
@[simp] theorem State.setEngine_cmd : (s.setEngine c e).cmd = s.cmd := rfl
@[simp] theorem State.setEngine_engines : (s.setEngine c e).engines = s.engines.set c e := rfl
@[simp] theorem State.setEngine_result : (s.setEngine c e).result = s.result := rfl
@[simp] theorem State.setEngine_requests : (s.setEngine c e).requests = s.requests := rfl
@[simp] theorem State.setEngine_turns : (s.setEngine c e).turns = s.turns := rfl

@[simp] theorem State.commit_rom : (s.commit c e).rom = s.rom := rfl
@[simp] theorem State.commit_status : (s.commit c e).status = s.status := rfl
@[simp] theorem State.commit_errCode : (s.commit c e).errCode = s.errCode := rfl
@[simp] theorem State.commit_cmd : (s.commit c e).cmd = s.cmd := rfl
@[simp] theorem State.commit_engines : (s.commit c e).engines = s.engines.set c e := rfl
@[simp] theorem State.commit_result : (s.commit c e).result = s.result := rfl
@[simp] theorem State.commit_requests : (s.commit c e).requests = s.requests := rfl
@[simp] theorem State.commit_turns : (s.commit c e).turns = s.turns.tail := rfl

@[simp] theorem State.raise_rom : (s.raise er).rom = s.rom := rfl
@[simp] theorem State.raise_status : (s.raise er).status = .error := rfl
@[simp] theorem State.raise_errCode : (s.raise er).errCode = er.errCode := rfl
@[simp] theorem State.raise_cmd : (s.raise er).cmd = none := rfl
@[simp] theorem State.raise_engines : (s.raise er).engines = [] := rfl
@[simp] theorem State.raise_result : (s.raise er).result = some (.err er) := rfl
@[simp] theorem State.raise_requests : (s.raise er).requests = s.requests := rfl
@[simp] theorem State.raise_turns : (s.raise er).turns = s.turns := rfl

@[simp] theorem State.finish_rom : s.finish.rom = s.rom := rfl
@[simp] theorem State.finish_status : s.finish.status = .done := rfl
@[simp] theorem State.finish_errCode : s.finish.errCode = .none := rfl
@[simp] theorem State.finish_cmd : s.finish.cmd = none := rfl
@[simp] theorem State.finish_engines : s.finish.engines = [] := rfl
@[simp] theorem State.finish_result : s.finish.result = some (.ok (s.engines.map (·.out))) := rfl
@[simp] theorem State.finish_requests : s.finish.requests = s.requests := rfl
@[simp] theorem State.finish_turns : s.finish.turns = s.turns := rfl

@[simp] theorem State.issue_rom : (s.issue cmd).rom = s.rom := rfl
@[simp] theorem State.issue_status : (s.issue cmd).status = s.status := rfl
@[simp] theorem State.issue_errCode : (s.issue cmd).errCode = s.errCode := rfl
@[simp] theorem State.issue_cmd : (s.issue cmd).cmd = s.cmd := rfl
@[simp] theorem State.issue_engines : (s.issue cmd).engines = s.engines := rfl
@[simp] theorem State.issue_result : (s.issue cmd).result = s.result := rfl
@[simp] theorem State.issue_requests : (s.issue cmd).requests = s.requests ++ [cmd] := rfl
@[simp] theorem State.issue_turns : (s.issue cmd).turns = s.turns := rfl

@[simp] theorem State.powerOn_rom : (State.powerOn rom).rom = rom := rfl
@[simp] theorem State.powerOn_status : (State.powerOn rom).status = .idle := rfl
@[simp] theorem State.powerOn_errCode : (State.powerOn rom).errCode = .none := rfl
@[simp] theorem State.powerOn_cmd : (State.powerOn rom).cmd = none := rfl
@[simp] theorem State.powerOn_engines : (State.powerOn rom).engines = [] := rfl
@[simp] theorem State.powerOn_result : (State.powerOn rom).result = none := rfl
@[simp] theorem State.powerOn_requests : (State.powerOn rom).requests = [] := rfl
@[simp] theorem State.powerOn_turns : (State.powerOn rom).turns = [] := rfl

/-- Accepting a command whose checks fail is the abort on the latched state (60 R98). -/
theorem State.accept_of_error {cmd : Command} {er : Error} (h : checkCommand (latchCommand cmd) = some er) :
    s.accept cmd = { s with status := .error, errCode := er.errCode, cmd := none, engines := [], result := some (.err er) } := by
  simp [State.accept, h, State.raise]

/-- Accepting a command whose checks pass binds it and allocates one fresh engine per channel (42 R79). -/
theorem State.accept_of_ok {cmd : Command} (h : checkCommand (latchCommand cmd) = none) :
    s.accept cmd = { s with status := .busy, errCode := .none, cmd := some (latchCommand cmd), result := none, engines := List.replicate cmd.channelCount.toNat Engine.fresh } := by
  simp only [State.accept, h]
  rfl

end Sys2Proof.Machine
end

