-- ==== Sys2Proof/Laws/Exec.lean ====
section
/-! SUPPORT. Which engine moves, and what running an operation on it can do; the variants as slot operations. -/

namespace Sys2Proof.Machine

/-! ## The engine that moves -/

theorem firstActive_some {b : Bound} {es : List Engine} {c0 c : Nat} {e : Engine} (h : firstActive b c0 es = some (c, e)) :
    c0 ≤ c ∧ es[c - c0]? = some e ∧ e.complete b = false := by
  induction es generalizing c0 with
  | nil => cases h
  | cons x xs ih =>
    unfold firstActive at h
    by_cases hx : x.complete b = true
    · rw [if_pos hx] at h
      obtain ⟨h1, h2, h3⟩ := ih h
      refine ⟨by omega, ?_, h3⟩
      rw [show c - c0 = (c - (c0 + 1)) + 1 by omega, List.getElem?_cons_succ]
      exact h2
    · rw [if_neg hx] at h
      simp only [Option.some.injEq, Prod.mk.injEq] at h
      obtain ⟨rfl, rfl⟩ := h
      simp [Bool.eq_false_iff.2 hx]

theorem firstActive_none {b : Bound} {es : List Engine} {c0 : Nat} : firstActive b c0 es = none ↔ ∀ e ∈ es, e.complete b = true := by
  induction es generalizing c0 with
  | nil => simp [firstActive]
  | cons x xs ih =>
    unfold firstActive
    by_cases hx : x.complete b = true
    · simp [hx, ih]
    · simp [hx]

theorem scheduledEngine_some {b : Bound} {es : List Engine} {ts : List Nat} {c : Nat} {e : Engine}
    (h : scheduledEngine b es ts = some (c, e)) : es[c]? = some e ∧ e.complete b = false := by
  unfold scheduledEngine at h
  split at h
  · cases h
  · split at h
    · cases h
    · split at h
      · cases h
      · simp only [Option.some.injEq, Prod.mk.injEq] at h
        obtain ⟨rfl, rfl⟩ := h
        exact ⟨‹_›, Bool.eq_false_iff.2 ‹¬ _›⟩

/-- The selected engine exists, at the channel number selected, and has a slot operation left. -/
theorem State.selectedIn_some {s : State} {b : Bound} {c : Nat} {e : Engine} (h : s.selectedIn b = some (c, e)) :
    s.engines[c]? = some e ∧ e.complete b = false := by
  unfold State.selectedIn at h
  split at h
  · rw [Option.some.injEq] at h; subst h; exact scheduledEngine_some ‹_›
  · obtain ⟨_, h2, h3⟩ := firstActive_some h
    exact ⟨by simpa using h2, h3⟩

/-- No engine is selected exactly when every channel is complete (42 R80). -/
theorem State.selectedIn_none {s : State} {b : Bound} : s.selectedIn b = none ↔ ∀ e ∈ s.engines, e.complete b = true := by
  unfold State.selectedIn
  constructor
  · intro h
    split at h
    · cases h
    · exact firstActive_none.1 h
  · intro h
    split
    · rename_i p hp
      obtain ⟨c, e⟩ := p
      obtain ⟨h1, h2⟩ := scheduledEngine_some hp
      have := h e (List.mem_of_getElem? h1)
      simp [this] at h2
    · exact firstActive_none.2 h

theorem State.selected_eq {s : State} {b : Bound} (h : s.cmd = some b) : s.selected = s.selectedIn b := by
  simp [State.selected, h]

/-- Putting an engine back where it stands changes nothing. -/
theorem State.setEngine_self {s : State} {c : Nat} {e : Engine} (h : s.engines[c]? = some e) : s.setEngine c e = s := by
  have : s.engines.set c e = s.engines := by
    apply List.ext_getElem?
    intro n
    by_cases hn : c = n
    · subst hn
      have hlt : c < s.engines.length := by
        rcases Nat.lt_or_ge c s.engines.length with hl | hl
        · exact hl
        · rw [List.getElem?_eq_none hl] at h; cases h
      rw [h]; simp [hlt]
    · rw [List.getElem?_set_ne hn]
  unfold State.setEngine
  rw [this]

/-! ## Running an operation -/

/-- Running an operation that succeeds commits its engine. -/
theorem runOnSelected_next {op : Bound → Engine → Except Fault Engine} {s : State} {b : Bound} {c : Nat} {e e' : Engine}
    (hb : s.cmd = some b) (hs : s.selected = some (c, e)) (ho : op b e = .ok e') :
    runOnSelected op s = .next (s.commit c e') := by
  rw [State.selected_eq hb] at hs
  simp [runOnSelected, hb, hs, ho]

theorem runOnSelected_fault {op : Bound → Engine → Except Fault Engine} {s : State} {b : Bound} {c : Nat} {e : Engine} {f : Fault}
    (hb : s.cmd = some b) (hs : s.selected = some (c, e)) (ho : op b e = .error f) : runOnSelected op s = .fault f := by
  rw [State.selected_eq hb] at hs
  simp [runOnSelected, hb, hs, ho]

/-- Everything running an operation can do: commit the engine it gives, fault as it does, or fault for want of a command or an engine. -/
theorem runOnSelected_cases (op : Bound → Engine → Except Fault Engine) (s : State) :
    (s.cmd = none ∧ runOnSelected op s = .fault .noCommand) ∨
    (∃ b, s.cmd = some b ∧ s.selected = none ∧ runOnSelected op s = .fault .noEngine) ∨
    (∃ b c e, s.cmd = some b ∧ s.selected = some (c, e) ∧
      ((∃ f, op b e = .error f ∧ runOnSelected op s = .fault f) ∨
       (∃ e', op b e = .ok e' ∧ runOnSelected op s = .next (s.commit c e')))) := by
  cases hb : s.cmd with
  | none => simp [runOnSelected, hb]
  | some b =>
    cases hs : s.selectedIn b with
    | none => simp [runOnSelected, hb, State.selected, hs]
    | some p =>
      obtain ⟨c, e⟩ := p
      cases ho : op b e <;> simp [runOnSelected, hb, State.selected, hs, ho]

/-- If running an operation gives a next state, it is the commit of the engine the operation gave. -/
theorem runOnSelected_inv {op : Bound → Engine → Except Fault Engine} {s t : State} (h : runOnSelected op s = .next t) :
    ∃ b c e e', s.cmd = some b ∧ s.selected = some (c, e) ∧ op b e = .ok e' ∧ t = s.commit c e' := by
  rcases runOnSelected_cases op s with ⟨_, h'⟩ | ⟨_, _, _, h'⟩ | ⟨b, c, e, hb, hs, ⟨f, _, h'⟩ | ⟨e', ho, h'⟩⟩
  · rw [h'] at h; cases h
  · rw [h'] at h; cases h
  · rw [h'] at h; cases h
  · rw [h'] at h; cases h; exact ⟨b, c, e, e', hb, hs, ho, rfl⟩

/-- Every instruction runs some operation on the selected engine. -/
theorem exec_runs (i : Instr) (s : State) : ∃ op, exec i s = runOnSelected op s := by
  cases i <;> exact ⟨_, rfl⟩

/-! ## The variants -/

theorem fin3_cases (v : BitVec 3) : v = 0 ∨ v = 1 ∨ v = 2 ∨ v = 3 ∨ v = 4 ∨ v = 5 ∨ v = 6 ∨ v = 7 := by
  revert v; decide

theorem fin2_cases (v : BitVec 2) : v = 0 ∨ v = 1 ∨ v = 2 ∨ v = 3 := by
  revert v; decide

/-- Each variant of N.S0 is N.S0 with its codedValue (30 R54). -/
theorem exec_ns0Variant (v : BitVec 3) (s : State) : exec (ns0Variant v) s = execNs0 v s := by
  rcases fin3_cases v with h | h | h | h | h | h | h | h <;> subst h <;> rfl

theorem exec_ns1Variant (v : BitVec 2) (s : State) : exec (ns1Variant v) s = execNs1 v s := by
  rcases fin2_cases v with h | h | h | h <;> subst h <;> rfl

theorem exec_ns2Variant (v : BitVec 3) (s : State) : exec (ns2Variant v) s = execNs2 v s := by
  rcases fin3_cases v with h | h | h | h | h | h | h | h <;> subst h <;> rfl

theorem exec_ws0Variant (v : BitVec 3) (s : State) : exec (ws0Variant v) s = execWs0 v s := by
  rcases fin3_cases v with h | h | h | h | h | h | h | h <;> subst h <;> rfl

theorem exec_ws1Variant (v : BitVec 2) (s : State) : exec (ws1Variant v) s = execWs1 v s := by
  rcases fin2_cases v with h | h | h | h <;> subst h <;> rfl

theorem exec_ws2Variant (v : BitVec 3) (s : State) : exec (ws2Variant v) s = execWs2 v s := by
  rcases fin3_cases v with h | h | h | h | h | h | h | h <;> subst h <;> rfl

end Sys2Proof.Machine
end

