-- ==== Sys2Proof/Laws/Memory.lean ====
section
/-! SUPPORT. The laws of memory: a read after a placing, the canonical form, and BUF holding the host's bytes. -/

namespace Sys2Proof.Machine

theorem Memory.wfFrom_mono {m : Memory} {lo lo' : Nat} (h : Memory.wfFrom lo m = true) (hl : lo' ≤ lo) :
    Memory.wfFrom lo' m = true := by
  cases m with
  | nil => rfl
  | cons c m => obtain ⟨a, b⟩ := c; simp [Memory.wfFrom] at h ⊢; exact ⟨⟨by omega, h.1.2⟩, h.2⟩

theorem Memory.read_of_lt {m : Memory} {lo x : Nat} (h : Memory.wfFrom lo m = true) (hx : x < lo) :
    Memory.read m x = unlistedByte := by
  induction m generalizing lo with
  | nil => rfl
  | cons c m ih =>
    obtain ⟨a, b⟩ := c
    simp [Memory.wfFrom] at h
    have : a ≠ x := by omega
    simp [Memory.read, this, ih h.2 (by omega)]

/-- Placing a byte keeps the canonical form. -/
theorem Memory.place_wfFrom {m : Memory} {lo x : Nat} {v : Byte} (h : Memory.wfFrom lo m = true) (hx : lo ≤ x) :
    Memory.wfFrom lo (Memory.place m x v) = true := by
  induction m generalizing lo with
  | nil =>
    unfold Memory.place
    split
    · rfl
    · simp [Memory.wfFrom, *]
  | cons c m ih =>
    obtain ⟨a, b⟩ := c
    simp only [Memory.wfFrom, Bool.and_eq_true, decide_eq_true_eq] at h
    unfold Memory.place
    split
    · simp only [Memory.wfFrom, Bool.and_eq_true, decide_eq_true_eq]
      exact ⟨h.1, ih h.2 (by omega)⟩
    · split
      · subst_vars
        split
        · exact Memory.wfFrom_mono h.2 (by omega)
        · simp [Memory.wfFrom, h.2, *]
      · split
        · simp only [Memory.wfFrom, Bool.and_eq_true, decide_eq_true_eq]; exact h
        · simp only [Memory.wfFrom, Bool.and_eq_true, decide_eq_true_eq]
          exact ⟨⟨hx, ‹_›⟩, ⟨by omega, h.1.2⟩, h.2⟩

theorem Memory.place_wf {m : Memory} (x : Nat) (v : Byte) (h : Memory.wf m = true) : Memory.wf (Memory.place m x v) = true :=
  Memory.place_wfFrom h (Nat.zero_le x)

/-- A read after a placing: the byte placed at its offset, every other offset as before. -/
theorem Memory.read_place {m : Memory} {lo : Nat} (x y : Nat) (v : Byte) (h : Memory.wfFrom lo m = true) :
    Memory.read (Memory.place m x v) y = if y = x then v else Memory.read m y := by
  induction m generalizing lo with
  | nil =>
    unfold Memory.place
    by_cases hv : v = unlistedByte <;> by_cases hy : y = x <;> simp [hv, hy, Memory.read]
    intro hxy; exact absurd hxy.symm hy
  | cons c m ih =>
    obtain ⟨a, b⟩ := c
    simp only [Memory.wfFrom, Bool.and_eq_true, decide_eq_true_eq] at h
    have hm := h.2
    unfold Memory.place
    by_cases h1 : a < x
    · by_cases hay : a = y
      · subst hay
        have : a ≠ x := by omega
        simp [h1, Memory.read, this]
      · simp [h1, Memory.read, hay, ih hm]
    · by_cases h2 : a = x
      · subst h2
        by_cases hv : v = unlistedByte
        · by_cases hy : y = a
          · subst hy; simp [hv, Memory.read_of_lt hm (Nat.lt_succ_self y)]
          · have : a ≠ y := fun h => hy h.symm
            simp [hv, hy, Memory.read, this]
        · by_cases hy : y = a
          · subst hy; simp [hv, Memory.read]
          · have : a ≠ y := fun h => hy h.symm
            simp [hv, hy, Memory.read, this]
      · have hw : Memory.wfFrom a ((a, b) :: m) = true := by
          simp [Memory.wfFrom, h.1.2, hm]
        by_cases hv : v = unlistedByte
        · by_cases hy : y = x
          · subst hy
            simp [h1, h2, hv, Memory.read_of_lt hw (show y < a by omega)]
          · simp [h1, h2, hv, hy]
        · by_cases hy : y = x
          · subst hy; simp [h1, h2, hv, Memory.read]
          · have : x ≠ y := fun h => hy h.symm
            simp [h1, h2, hv, hy, Memory.read, this]

/-- BUF is bound in canonical form. -/
theorem Memory.ofBytesFrom_wfFrom (bs : List Byte) (base : Nat) : Memory.wfFrom base (Memory.ofBytesFrom base bs) = true := by
  induction bs generalizing base with
  | nil => rfl
  | cons b bs ih => exact Memory.place_wfFrom (Memory.wfFrom_mono (ih (base + 1)) (by omega)) (Nat.le_refl _)

@[simp] theorem Memory.ofBytes_wf (bs : List Byte) : Memory.wf (Memory.ofBytes bs) = true :=
  Memory.ofBytesFrom_wfFrom bs 0

theorem Memory.read_ofBytesFrom (bs : List Byte) (base x : Nat) :
    Memory.read (Memory.ofBytesFrom base bs) x = if x < base then unlistedByte else bs.getD (x - base) unlistedByte := by
  induction bs generalizing base with
  | nil => simp [Memory.ofBytesFrom, Memory.read]
  | cons b bs ih =>
    rw [Memory.ofBytesFrom, Memory.read_place base x b (Memory.ofBytesFrom_wfFrom bs (base + 1)), ih]
    by_cases h1 : x = base
    · simp [h1]
    · by_cases h2 : x < base
      · simp [h1, h2, show x < base + 1 by omega]
      · have h3 : x - base = (x - (base + 1)) + 1 := by omega
        simp only [h1, h2, show ¬ x < base + 1 by omega, if_false, h3, List.getD_cons_succ]

/-- BUF reads as the host's bytes: byte x of the sequence at offset x (10 R16). -/
@[simp] theorem Memory.read_ofBytes (bs : List Byte) (x : Nat) :
    Memory.read (Memory.ofBytes bs) x = bs.getD x unlistedByte := by
  simp [Memory.ofBytes, Memory.read_ofBytesFrom]

/-- Every cell of BUF lies inside [0, BUF_LEN). -/
theorem Memory.ofBytesFrom_inside (bs : List Byte) (base : Nat) :
    ∀ cell ∈ Memory.ofBytesFrom base bs, cell.1 < base + bs.length := by
  induction bs generalizing base with
  | nil => simp [Memory.ofBytesFrom]
  | cons b bs ih =>
    have key : ∀ (m : Memory) (x : Nat) (v : Byte) (n : Nat), x < n → (∀ cell ∈ m, cell.1 < n) →
        ∀ cell ∈ Memory.place m x v, cell.1 < n := by
      intro m x v n hx
      induction m with
      | nil =>
        intro _ cell hc
        unfold Memory.place at hc
        split at hc
        · cases hc
        · simp only [List.mem_singleton] at hc; subst hc; exact hx
      | cons c m ihm =>
        obtain ⟨a, b⟩ := c
        intro hm cell hc
        have hm' : ∀ cell ∈ m, cell.1 < n := fun c h => hm c (List.mem_cons_of_mem _ h)
        unfold Memory.place at hc
        split at hc
        · rcases List.mem_cons.1 hc with h | h
          · subst h; exact hm _ (List.mem_cons_self ..)
          · exact ihm hm' cell h
        · split at hc
          · split at hc
            · exact hm' cell hc
            · rcases List.mem_cons.1 hc with h | h
              · subst h; exact hx
              · exact hm' cell h
          · split at hc
            · exact hm cell hc
            · rcases List.mem_cons.1 hc with h | h
              · subst h; exact hx
              · exact hm cell h
    simp only [Memory.ofBytesFrom, List.length_cons]
    refine key _ _ _ _ (by omega) fun cell h => ?_
    have := ih (base + 1) cell h
    omega

theorem Memory.ofBytes_inside (bs : List Byte) : ∀ cell ∈ Memory.ofBytes bs, cell.1 < bs.length := by
  intro cell h
  have := Memory.ofBytesFrom_inside bs 0 cell h
  omega

/-- The reset memory, no cell, has the canonical form. -/
theorem Memory.wf_nil : Memory.wf [] = true := rfl

/-- MemRead gives a byte exactly inside [0, BUF_LEN) (20 R37). -/
theorem memRead_inside {b : Bound} {a : Int} (h : 0 ≤ a ∧ a < b.bufLen) : memRead b a = .ok (Memory.read b.buf a.toNat) := by
  simp [memRead, h]

theorem memRead_outside {b : Bound} {a : Int} (h : ¬ (0 ≤ a ∧ a < b.bufLen)) : memRead b a = .error (.offsetOutOfRange a) := by
  simp [memRead, h]

end Sys2Proof.Machine
end

