-- ==== Sys2Proof/Laws/PerInstr.lean ====
section
/-! SUPPORT. Statements made per instruction. EncodeKeepsRow: the byte that holds an instruction matches the instruction's row (mask and match of spec/opcode_table.json, the operand in its field) and leaves every other bit as it was. -/

namespace Sys2Proof.Laws.EncodeKeepsRow

/-- The encoded byte agrees with the instruction's bits under its mask, and with the other slots' bits elsewhere. -/
def Statement (i : Instr) : Prop :=
  ∀ others : Byte, i.encodeInto others &&& i.bits.mask = i.bits.value ∧
    i.encodeInto others &&& ~~~i.bits.mask = others &&& ~~~i.bits.mask

/-- It is enough that the value's bits lie under the mask. -/
theorem of_value_under_mask {i : Instr} (h : i.bits.value &&& i.bits.mask = i.bits.value) : Statement i := by
  have bit : ∀ k : Nat, (i.bits.value.getLsbD k && i.bits.mask.getLsbD k) = i.bits.value.getLsbD k := fun k => by
    rw [← BitVec.getLsbD_and, h]
  intro others
  constructor <;> apply BitVec.eq_of_getLsbD_eq <;> intro k hk <;> have hb := bit k <;>
    simp only [Instr.encodeInto, BitVec.getLsbD_and, BitVec.getLsbD_or, BitVec.getLsbD_not, hk, decide_true, Bool.true_and] <;>
    revert hb <;> cases i.bits.value.getLsbD k <;> cases i.bits.mask.getLsbD k <;> cases others.getLsbD k <;> simp

theorem nbyte (a : BitVec 3) (b : BitVec 2) (c : BitVec 3) : Statement (.nbyte a b c) :=
  of_value_under_mask (by revert a b c; decide)
theorem wbyte (a : BitVec 3) (b : BitVec 2) (c : BitVec 3) : Statement (.wbyte a b c) :=
  of_value_under_mask (by revert a b c; decide)
theorem ns0 (v : BitVec 3) : Statement (.ns0 v) := of_value_under_mask (by revert v; decide)
theorem ns1 (v : BitVec 2) : Statement (.ns1 v) := of_value_under_mask (by revert v; decide)
theorem ns2 (v : BitVec 3) : Statement (.ns2 v) := of_value_under_mask (by revert v; decide)
theorem ws0 (v : BitVec 3) : Statement (.ws0 v) := of_value_under_mask (by revert v; decide)
theorem ws1 (v : BitVec 2) : Statement (.ws1 v) := of_value_under_mask (by revert v; decide)
theorem ws2 (v : BitVec 3) : Statement (.ws2 v) := of_value_under_mask (by revert v; decide)
theorem ns0_0 : Statement .ns0_0 := of_value_under_mask (by decide)
theorem ns0_1 : Statement .ns0_1 := of_value_under_mask (by decide)
theorem ns0_2 : Statement .ns0_2 := of_value_under_mask (by decide)
theorem ns0_3 : Statement .ns0_3 := of_value_under_mask (by decide)
theorem ns0_4 : Statement .ns0_4 := of_value_under_mask (by decide)
theorem ns0_5 : Statement .ns0_5 := of_value_under_mask (by decide)
theorem ns0_6 : Statement .ns0_6 := of_value_under_mask (by decide)
theorem ns0_7 : Statement .ns0_7 := of_value_under_mask (by decide)
theorem ns1_0 : Statement .ns1_0 := of_value_under_mask (by decide)
theorem ns1_1 : Statement .ns1_1 := of_value_under_mask (by decide)
theorem ns1_2 : Statement .ns1_2 := of_value_under_mask (by decide)
theorem ns1_3 : Statement .ns1_3 := of_value_under_mask (by decide)
theorem ns2_0 : Statement .ns2_0 := of_value_under_mask (by decide)
theorem ns2_1 : Statement .ns2_1 := of_value_under_mask (by decide)
theorem ns2_2 : Statement .ns2_2 := of_value_under_mask (by decide)
theorem ns2_3 : Statement .ns2_3 := of_value_under_mask (by decide)
theorem ns2_4 : Statement .ns2_4 := of_value_under_mask (by decide)
theorem ns2_5 : Statement .ns2_5 := of_value_under_mask (by decide)
theorem ns2_6 : Statement .ns2_6 := of_value_under_mask (by decide)
theorem ns2_7 : Statement .ns2_7 := of_value_under_mask (by decide)
theorem ws0_0 : Statement .ws0_0 := of_value_under_mask (by decide)
theorem ws0_1 : Statement .ws0_1 := of_value_under_mask (by decide)
theorem ws0_2 : Statement .ws0_2 := of_value_under_mask (by decide)
theorem ws0_3 : Statement .ws0_3 := of_value_under_mask (by decide)
theorem ws0_4 : Statement .ws0_4 := of_value_under_mask (by decide)
theorem ws0_5 : Statement .ws0_5 := of_value_under_mask (by decide)
theorem ws0_6 : Statement .ws0_6 := of_value_under_mask (by decide)
theorem ws0_7 : Statement .ws0_7 := of_value_under_mask (by decide)
theorem ws1_0 : Statement .ws1_0 := of_value_under_mask (by decide)
theorem ws1_1 : Statement .ws1_1 := of_value_under_mask (by decide)
theorem ws1_2 : Statement .ws1_2 := of_value_under_mask (by decide)
theorem ws1_3 : Statement .ws1_3 := of_value_under_mask (by decide)
theorem ws2_0 : Statement .ws2_0 := of_value_under_mask (by decide)
theorem ws2_1 : Statement .ws2_1 := of_value_under_mask (by decide)
theorem ws2_2 : Statement .ws2_2 := of_value_under_mask (by decide)
theorem ws2_3 : Statement .ws2_3 := of_value_under_mask (by decide)
theorem ws2_4 : Statement .ws2_4 := of_value_under_mask (by decide)
theorem ws2_5 : Statement .ws2_5 := of_value_under_mask (by decide)
theorem ws2_6 : Statement .ws2_6 := of_value_under_mask (by decide)
theorem ws2_7 : Statement .ws2_7 := of_value_under_mask (by decide)

end Sys2Proof.Laws.EncodeKeepsRow
end

