-- ==== Sys2Proof/Laws/Step.lean ====
section
/-! SUPPORT. What fetching can do, what one step can do, and running several steps. -/

namespace Sys2Proof.Machine

/-- Everything the fetch of a selected engine can do (42 R82). -/
theorem State.fetch_cases (s : State) (b : Bound) (c : Nat) (e : Engine) :
    (e.cur.l = .s0 ∧ (0 ≤ addr b c e.cur.f e.cur.k ∧ addr b c e.cur.f e.cur.k < b.bufLen) ∧
      s.fetch b c e = .latched (Memory.read b.buf (addr b c e.cur.f e.cur.k).toNat)
        (s.setEngine c { e with latch := some (Memory.read b.buf (addr b c e.cur.f e.cur.k).toNat) })) ∨
    (e.cur.l = .s0 ∧ ¬ (0 ≤ addr b c e.cur.f e.cur.k ∧ addr b c e.cur.f e.cur.k < b.bufLen) ∧
      s.fetch b c e = .raised (.offsetOutOfRange (addr b c e.cur.f e.cur.k))) ∨
    (e.cur.l ≠ .s0 ∧ e.latch = none ∧ s.fetch b c e = .stopped .latchEmpty) ∨
    (∃ v, e.cur.l ≠ .s0 ∧ e.latch = some v ∧ s.fetch b c e = .latched v s) := by
  unfold State.fetch
  cases hl : e.cur.l with
  | s0 =>
    by_cases h : 0 ≤ addr b c e.cur.f e.cur.k ∧ addr b c e.cur.f e.cur.k < b.bufLen
    · simp [memRead_inside h, h]
    · simp [memRead_outside h, h]
  | s1 => cases he : e.latch <;> simp
  | s2 => cases he : e.latch <;> simp

/-- A step of a machine with a non-conforming ROM is refused (10 R27). -/
theorem step_of_not_conforms {s : State} (h : s.rom.conforms = false) : step s = .refused .tablesNotConforming := by
  simp [step, sequence, h]

/-- A step of a machine that is not BUSY accepts the host's oldest command, if there is one. -/
theorem step_of_not_busy {s : State} (h : s.rom.conforms = true) (hs : s.status ≠ .busy) : step s = .next s.acceptNext := by
  cases h' : s.status <;> simp_all [step, sequence]

/-- A step of a BUSY machine. -/
theorem step_of_busy {s : State} (h : s.rom.conforms = true) (hs : s.status = .busy) : step s = runCommand s := by
  simp [step, sequence, h, hs]

/-- Everything a step that gives a next state can be. -/
theorem step_cases {s t : State} (h : step s = .next t) :
    s.rom.conforms = true ∧
    ((s.status ≠ .busy ∧ t = s.acceptNext) ∨
     (∃ b, s.status = .busy ∧ s.cmd = some b ∧ s.selectedIn b = none ∧ t = s.finish) ∨
     (∃ b c e er, s.status = .busy ∧ s.cmd = some b ∧ s.selectedIn b = some (c, e) ∧ s.fetch b c e = .raised er ∧ t = s.raise er) ∨
     (∃ b c e v s', s.status = .busy ∧ s.cmd = some b ∧ s.selectedIn b = some (c, e) ∧ s.fetch b c e = .latched v s' ∧
        exec (decodeVariant ⟨b.mode, e.cur.l⟩ v) s' = .next t)) := by
  by_cases hc : s.rom.conforms = true
  · refine ⟨hc, ?_⟩
    by_cases hs : s.status = .busy
    · right
      rw [step_of_busy hc hs] at h
      unfold runCommand at h
      split at h
      · cases h
      · rename_i b hb
        split at h
        · cases h; exact .inl ⟨b, hs, hb, ‹_›, rfl⟩
        · rename_i c e hsel
          split at h
          · rename_i er hf
            cases h; exact .inr (.inl ⟨b, c, e, er, hs, hb, hsel, hf, rfl⟩)
          · cases h
          · rename_i v s' hf
            exact .inr (.inr ⟨b, c, e, v, s', hs, hb, hsel, hf, h⟩)
    · left
      rw [step_of_not_busy hc hs] at h
      cases h; exact ⟨hs, rfl⟩
  · rw [step_of_not_conforms (by simpa using hc)] at h; cases h

@[simp] theorem core_run_zero (s : State) : Sys2Proof.core.run 0 s = .next s := rfl

theorem core_run_succ_of_next {s t : State} (h : step s = .next t) (n : Nat) :
    Sys2Proof.core.run (n + 1) s = Sys2Proof.core.run n t := by
  have h' : Sys2Proof.core.step s = .next t := h
  simp only [Host.Core.run, h']

theorem core_run_succ_fault {s : State} {r : Fault} (h : step s = .fault r) (n : Nat) :
    Sys2Proof.core.run (n + 1) s = .fault r := by
  have h' : Sys2Proof.core.step s = .fault r := h
  simp only [Host.Core.run, h']

theorem core_run_succ_refused {s : State} {r : Refusal} (h : step s = .refused r) (n : Nat) :
    Sys2Proof.core.run (n + 1) s = .refused r := by
  have h' : Sys2Proof.core.step s = .refused r := h
  simp only [Host.Core.run, h']

/-- Running m + n steps is running m and then n. -/
theorem core_run_add (m n : Nat) (s t : State) (h : Sys2Proof.core.run m s = .next t) :
    Sys2Proof.core.run (m + n) s = Sys2Proof.core.run n t := by
  induction m generalizing s with
  | zero => simp only [core_run_zero] at h; cases h; simp
  | succ m ih =>
    rw [show m + 1 + n = (m + n) + 1 by omega]
    cases hs : step s with
    | next u =>
      rw [core_run_succ_of_next hs] at h ⊢
      exact ih u h
    | fault r => rw [core_run_succ_fault hs] at h; cases h
    | refused r => rw [core_run_succ_refused hs] at h; cases h

end Sys2Proof.Machine
end

