-- ==== Sys2Proof/Tests/Slice0.lean ====
section
/-! SUPPORT. The model's own tests. Expected values are those of spec/95_test_vectors.md (TEST tables) and of the examples in the rules, or are written out by hand from the encoding of 30 R50 and R51; then one witness for the hypotheses of each statement that has any. -/

namespace Sys2Proof.Machine.Tests

/-! ## WellFormed: each check refuses an ill-formed term -/

/-- A Wide instruction does not stand in Narrow (30 R56). -/
theorem test_wellFormed_mode_refused : (Instr.ws0_5).modeOk ⟨.narrow, .s0⟩ = false ∧ (Instr.ws0_5).wellFormed ⟨.narrow, .s0⟩ = false := by decide
/-- A slot 1 instruction does not stand at slot 2, and a byte format does not begin there (30 R50, R51). -/
theorem test_wellFormed_slot_refused : (Instr.ns1 3).slotOk ⟨.narrow, .s2⟩ = false ∧ (Instr.ns1 3).wellFormed ⟨.narrow, .s2⟩ = false ∧
    (Instr.nbyte 5 2 3).wellFormed ⟨.narrow, .s2⟩ = false := by decide
theorem test_wellFormed_accepts : (Instr.ns1 3).wellFormed ⟨.narrow, .s1⟩ = true ∧ (Instr.wbyte 3 2 5).wellFormed ⟨.wide, .s0⟩ = true := by decide

/-! ## Decoding: words written out from 30 R50, R51 -/

/-- 0x75 = 011 10 101: N{5,2,3} and W{3,2,5} (30 R58). -/
theorem test_decode_bytes :
    decode .byteFormat ⟨.narrow, .s0⟩ [0b01110101#8] = .ok (.nbyte 5 2 3, []) ∧
    decode .byteFormat ⟨.wide, .s0⟩ [0b01110101#8] = .ok (.wbyte 3 2 5, []) := by decide
/-- 0x5C = 010 11 100: N{4,3,2} and W{2,3,4} (95 §2.8). -/
theorem test_decode_slotOperations :
    [Slot.s0, .s1, .s2].map (fun l => decodeSlotOperation ⟨.narrow, l⟩ 0b01011100#8) = [.ns0 4, .ns1 3, .ns2 2] ∧
    [Slot.s0, .s1, .s2].map (fun l => decodeSlotOperation ⟨.wide, l⟩ 0b01011100#8) = [.ws0 2, .ws1 3, .ws2 4] := by decide
theorem test_decode_ns0_variants :
    [0b00000000#8, 0b00000001#8, 0b00000010#8, 0b00000011#8, 0b00000100#8, 0b00000101#8, 0b00000110#8, 0b00000111#8].map (decodeVariant ⟨.narrow, .s0⟩) =
      [.ns0_0, .ns0_1, .ns0_2, .ns0_3, .ns0_4, .ns0_5, .ns0_6, .ns0_7] := by decide
theorem test_decode_ns1_variants :
    [0b00000000#8, 0b00001000#8, 0b00010000#8, 0b00011000#8].map (decodeVariant ⟨.narrow, .s1⟩) =
      [.ns1_0, .ns1_1, .ns1_2, .ns1_3] := by decide
theorem test_decode_ns2_variants :
    [0b00000000#8, 0b00100000#8, 0b01000000#8, 0b01100000#8, 0b10000000#8, 0b10100000#8, 0b11000000#8, 0b11100000#8].map (decodeVariant ⟨.narrow, .s2⟩) =
      [.ns2_0, .ns2_1, .ns2_2, .ns2_3, .ns2_4, .ns2_5, .ns2_6, .ns2_7] := by decide
theorem test_decode_ws0_variants :
    [0b00000000#8, 0b00100000#8, 0b01000000#8, 0b01100000#8, 0b10000000#8, 0b10100000#8, 0b11000000#8, 0b11100000#8].map (decodeVariant ⟨.wide, .s0⟩) =
      [.ws0_0, .ws0_1, .ws0_2, .ws0_3, .ws0_4, .ws0_5, .ws0_6, .ws0_7] := by decide
theorem test_decode_ws1_variants :
    [0b00000000#8, 0b00001000#8, 0b00010000#8, 0b00011000#8].map (decodeVariant ⟨.wide, .s1⟩) =
      [.ws1_0, .ws1_1, .ws1_2, .ws1_3] := by decide
theorem test_decode_ws2_variants :
    [0b00000000#8, 0b00000001#8, 0b00000010#8, 0b00000011#8, 0b00000100#8, 0b00000101#8, 0b00000110#8, 0b00000111#8].map (decodeVariant ⟨.wide, .s2⟩) =
      [.ws2_0, .ws2_1, .ws2_2, .ws2_3, .ws2_4, .ws2_5, .ws2_6, .ws2_7] := by decide
theorem test_decode_no_byte : decode .variant ⟨.wide, .s1⟩ [] = .error .noByte := by decide
theorem test_decode_byte_format_inside_a_byte : decode .byteFormat ⟨.wide, .s1⟩ [0x00#8] = .error .notAtByteStart := by decide
/-- N{5,2,3} = W{3,2,5} = 0x75 (30 R58). -/
theorem test_encode_bytes : encode (.nbyte 5 2 3) = [0x75#8] ∧ encode (.wbyte 3 2 5) = [0x75#8] := by decide
theorem test_table_words : decodeTableWord 8 0x05 = some .ns0_5 ∧ decodeTableWord 8 0x18 = some .ns1_3 ∧
    decodeTableWord 8 0xE0 = some .ns2_7 ∧ decodeTableWord 0 0 = none := by decide

/-! ## Small states -/

/-- A ChannelState from integers, in the order of 95: index, factor, prev2, previous, level. -/
def regs (index factor prev2 previous level : Int) : ChannelState :=
  ⟨BitVec.ofInt 16 index, BitVec.ofInt 16 factor, BitVec.ofInt 16 prev2, BitVec.ofInt 16 previous, BitVec.ofInt 16 level⟩

/-- The command of one channel and one frame on some bytes. -/
def bound (m : Mode) (bytes : List Byte) : Bound := ⟨m, 1, 1, Memory.ofBytes bytes, bytes.length⟩

/-- The TEST machine while that command runs, its engine at slot l of byte 0. -/
def busy (m : Mode) (bytes : List Byte) (cs : ChannelState) (l : Slot) (latch : Option Byte) : State :=
  { State.powerOn testTables with
    status := .busy
    cmd := some (bound m bytes)
    engines := [⟨cs, ⟨0, 0, l⟩, latch, []⟩] }

/-- The registers and the output of engine 0 after an outcome, as integers. -/
def seen : Host.Outcome State Fault Refusal → Option (List Int × List Int)
  | .next s => (s.engines[0]?).map fun e =>
      ([e.cs.index.toInt, e.cs.factor.toInt, e.cs.prev2.toInt, e.cs.previous.toInt, e.cs.level.toInt], e.out.map (·.toInt))
  | .fault _ => none
  | .refused _ => none

/-- An outcome in which something is seen is a next state. -/
theorem next_of_seen {o : Host.Outcome State Fault Refusal} (h : seen o ≠ none) : ∃ t, o = .next t := by
  cases o with
  | next t => exact ⟨t, rfl⟩
  | fault r => exact absurd rfl h
  | refused r => exact absurd rfl h

/-- An instruction run on an engine with given registers. -/
def run1 (m : Mode) (cs : ChannelState) (i : Instr) : Option (List Int × List Int) := seen (exec i (busy m [0, 0, 0, 0, 0, 0] cs i.slot none))

/-! ## The instructions -/

/-- 42 R84 (HCP §8). -/
theorem test_ns0 : run1 .narrow (regs 0 0 0 0 0) (.ns0 0) = some ([0, 0, 0, 0, 33], [0]) := by decide +kernel
/-- 42 R85. -/
theorem test_ns1 : run1 .narrow (regs 0 0 0 0 33) (.ns1 3) = some ([0, 0, 0, 0, -24], [-1]) := by decide +kernel
/-- 42 R86. -/
theorem test_ns2 : run1 .narrow (regs 300 0 0 0 1000) (.ns2 4) = some ([491, 0, 0, 0, -691], [-772]) := by decide +kernel
/-- 42 R87. -/
theorem test_ws0 : run1 .wide (regs 40 1000 50 100 200) (.ws0 5) = some ([119, 686, 100, -183, -8], [0, -1]) := by decide +kernel
/-- 42 R88. -/
theorem test_ws1 : run1 .wide (regs 0 0 0 0 0) (.ws1 1) = some ([150, 506, 0, 180, 5], [0, 0]) := by decide +kernel
/-- 42 R89. -/
theorem test_ws2 : run1 .wide (regs 0 506 0 18 0) (.ws2 7) = some ([0, 192, 18, -19, -1], [0, 0]) := by decide +kernel
/-- 95 P1, #3 to #5: byte 0x5C = N{4,3,2}. -/
theorem test_nbyte : run1 .narrow (regs 0 0 0 0 105) (.nbyte 4 3 2) = some ([249, 0, 0, 0, -343], [-515, -1543, -258]) := by decide +kernel
/-- 95 P2, #6 to #8: byte 0x8C = W{4,1,4}. -/
theorem test_wbyte : run1 .wide (regs 0 2216 (-32) (-21) (-3)) (.wbyte 4 1 4) =
    some ([534, 2094, 729, -938, -120], [-1, -258, -1, 0, 0, -1]) := by decide +kernel

/-- The level and the index after each variant from the zero state: level = step - (step >> 3) of the steps of 95 §2.3. -/
theorem test_narrow_variants :
    [Instr.ns0_0, .ns0_1, .ns0_2, .ns0_3, .ns0_4, .ns0_5, .ns0_6, .ns0_7].map (run1 .narrow (regs 0 0 0 0 0)) =
      [some ([0, 0, 0, 0, 33], [0]), some ([10, 0, 0, 0, 208], [0]), some ([80, 0, 0, 0, 383], [257]), some ([200, 0, 0, 0, 558], [514]),
       some ([200, 0, 0, 0, -558], [-515]), some ([80, 0, 0, 0, -383], [-258]), some ([10, 0, 0, 0, -208], [-1]), some ([0, 0, 0, 0, -33], [-1])] ∧
    [Instr.ns2_0, .ns2_1, .ns2_2, .ns2_3, .ns2_4, .ns2_5, .ns2_6, .ns2_7].map (run1 .narrow (regs 0 0 0 0 0)) =
      [some ([0, 0, 0, 0, 33], [0]), some ([10, 0, 0, 0, 208], [0]), some ([80, 0, 0, 0, 383], [257]), some ([200, 0, 0, 0, 558], [514]),
       some ([200, 0, 0, 0, -558], [-515]), some ([80, 0, 0, 0, -383], [-258]), some ([10, 0, 0, 0, -208], [-1]), some ([0, 0, 0, 0, -33], [-1])] ∧
    [Instr.ns1_0, .ns1_1, .ns1_2, .ns1_3].map (run1 .narrow (regs 0 0 0 0 0)) =
      [some ([0, 0, 0, 0, 53], [0]), some ([150, 0, 0, 0, 315], [257]), some ([150, 0, 0, 0, -315], [-258]), some ([0, 0, 0, 0, -53], [-1])] := by decide +kernel

/-- Index and history after each Wide variant from the zero state: previous = step >> 1 and factor = 506 or -314 by the step's sign (41 R69 to R72). -/
theorem test_wide_variants :
    [Instr.ws0_0, .ws0_1, .ws0_2, .ws0_3, .ws0_4, .ws0_5, .ws0_6, .ws0_7].map (fun i => (run1 .wide (regs 0 0 0 0 0) i).map fun p => p.1.take 4) =
      [some [0, 506, 0, 18], some [10, 506, 0, 118], some [80, 506, 0, 218], some [200, 506, 0, 318],
       some [200, -314, 0, -319], some [80, -314, 0, -219], some [10, -314, 0, -119], some [0, -314, 0, -19]] ∧
    [Instr.ws2_0, .ws2_1, .ws2_2, .ws2_3, .ws2_4, .ws2_5, .ws2_6, .ws2_7].map (fun i => (run1 .wide (regs 0 0 0 0 0) i).map fun p => p.1.take 4) =
      [some [0, 506, 0, 18], some [10, 506, 0, 118], some [80, 506, 0, 218], some [200, 506, 0, 318],
       some [200, -314, 0, -319], some [80, -314, 0, -219], some [10, -314, 0, -119], some [0, -314, 0, -19]] ∧
    [Instr.ws1_0, .ws1_1, .ws1_2, .ws1_3].map (fun i => (run1 .wide (regs 0 0 0 0 0) i).map fun p => p.1.take 4) =
      [some [0, 506, 0, 30], some [150, 506, 0, 180], some [150, -314, 0, -181], some [0, -314, 0, -31]] := by decide +kernel

/-! ## The shared operations -/

/-- 95 §2.1. -/
theorem test_asymmetricClip : [65534, 32768, 32767, 0, -32767, -32768, -32769, -40000, -65536].map asymmetricClip =
    [32767, 32767, 32767, 0, -32767, -32768, -32767, -32767, -32767] := by decide +kernel
/-- 95 §2.2. -/
theorem test_reorderBytes :
    [0, 37, 255, 256, 4660, 32767, -1, -256, -257, -533, -32640, -32767, -32768].map (fun x => (reorderBytes (BitVec.ofInt 16 x)).toInt) =
      [0, 0, 0, 257, 4626, 32639, -1, -1, -258, -515, -32640, -32640, -32640] := by decide +kernel
/-- 95 §2.3: index 2047 selects row 127, index 2048 row 0 (wide-stride, v = 0). -/
theorem test_decodeStep_rows :
    (decodeStep testTables.wideStride (regs 2047 0 0 0 0) 0).map (fun p => (p.1.index.toInt, p.2.toInt)) = .ok (1971, 8165) ∧
    (decodeStep testTables.wideStride (regs 2048 0 0 0 0) 0).map (fun p => (p.1.index.toInt, p.2.toInt)) = .ok (1971, 37) := by decide +kernel
/-- 95 §2.4: the sums -32768 and -33672. -/
theorem test_narrowSynth_clip :
    (narrowSynth (regs 0 0 0 0 (-28672)) (BitVec.ofInt 16 (-4096))).map (fun p => (p.1.level.toInt, p.2.map (·.toInt))) = .ok (-28672, [-32640]) ∧
    (narrowSynth (regs 0 0 0 0 (-28672)) (BitVec.ofInt 16 (-5000))).map (fun p => (p.1.level.toInt, p.2.map (·.toInt))) = .ok (-28671, [-32640]) := by decide +kernel

/-- The result of a Wide synthesis as integers: factor, prev2, previous, level, and the samples. -/
def wide (cs : ChannelState) (step : Int) : Except Fault (List Int × List Int) :=
  (wideSynth cs (BitVec.ofInt 16 step)).map fun p =>
    ([p.1.factor.toInt, p.1.prev2.toInt, p.1.previous.toInt, p.1.level.toInt], p.2.map (·.toInt))

/-- 95 §2.5, W7: the factor's clamp at the natural minimum. -/
theorem test_wideSynth_W7 : wide (regs 0 (-32454) 0 100 0) (-38) = .ok ([-32767, 100, -19, 37], [0, 0]) := by decide +kernel
/-- 95 §2.5, W9, W11 and W13: a negative factor, the product -32768 × 32767, the largest k. -/
theorem test_wideSynth_extremes :
    wide (regs 0 (-32453) 0 1 (-32767)) (-32768) = .ok ([-32767, 1, -16384, 32766], [-3856, -12080]) ∧
    wide (regs 0 32767 (-16384) (-16384) (-1)) (-32767) = .ok ([32767, -16384, -16384, -32767], [-32640, -32640]) ∧
    wide (regs 0 0 16383 (-16384) 0) (-32768) = .ok ([506, -16384, -16384, -506], [-7968, -24673]) := by decide +kernel
/-- 95 §2.7: Wide, C = 2, channel 1, frames 0 and 1. -/
theorem test_addr : [0, 5].map (fun k => addrWith (laneStride .wide) 2 1 0 k) = [6, 11] ∧
    [0, 5].map (fun k => addrWith (laneStride .wide) 2 1 1 k) = [18, 23] ∧ addrWith (laneStride .narrow) 2 1 1 2 = 11 := by decide +kernel
theorem test_memory_canonical : Memory.ofBytes [0x00, 0x5C, 0x00, 0xE3] = [(1, 0x5C), (3, 0xE3)] ∧
    Memory.place [(1, 0x5C), (3, 0xE3)] 1 0 = [(3, 0xE3)] ∧ Memory.wf [(3, 0xE3), (1, 0x5C)] = false := by decide +kernel

/-! ## Steps -/

/-- 95 §2.6, E4 and E5: the error that a step on a command returns. -/
def resultAfterStep (c : Command) : Option Result :=
  match step ((State.powerOn testTables).issue c) with
  | .next s => s.result
  | .fault _ => none
  | .refused _ => none

theorem test_E4 : resultAfterStep ⟨.narrow, -1, -1, []⟩ = some (.err (.invalidParameters (-1) (-1))) := by decide +kernel
theorem test_E5 : resultAfterStep ⟨.narrow, 1, 1, [0]⟩ = some (.err (.bufferTooShort 3 1)) := by decide +kernel
/-- 95 §1.1: the first slot of a frame whose first byte is 0x00, with its fetch. -/
theorem test_step_fetches : seen (step (busy .narrow [0, 0x5C, 0xE3] (regs 0 0 0 0 0) .s0 none)) = some ([0, 0, 0, 0, 33], [0]) := by decide +kernel
/-- 95 P1, #3: the byte 0x5C from the state before it. -/
theorem test_step_runs_word : seen (step ((busy .narrow [0x5C, 0, 0] (regs 0 0 0 0 105) .s0 none))) = some ([200, 0, 0, 0, -466], [-515]) := by decide +kernel
/-- A bare table word runs as the first instruction after reset: 0xE0 is N.S2 7, whose step is -38 (95 §2.3). -/
theorem test_withFetchWord : seen (step (State.reset.withFetchWord 8 0xE0)) = some ([0, 0, 0, 0, -33], [-1]) := by decide +kernel
theorem test_not_conforming_refused :
    (match step (State.powerOn { testTables with wdt := #v[0, 0, 0, 0, 0, 0, 0, 0] }) with
      | .refused r => decide (r = .tablesNotConforming) | _ => false) = true := by decide +kernel

/-! ## Witnesses: a concrete state and operands that meet all hypotheses of each statement that has any -/

theorem testTables_conform : testTables.conforms = true := by decide

/-- The states the witnesses use: Narrow and Wide, at slot 0 (byte 0x5C to be fetched) and at slot 1 (latched). -/
def narrow0 : State := busy .narrow [0x5C, 0, 0] (regs 0 0 0 0 105) .s0 none
def wide0 : State := busy .wide [0x5C, 0, 0, 0, 0, 0] (regs 40 1000 50 100 200) .s0 none
def wide1 : State := busy .wide [0x5C, 0, 0, 0, 0, 0] (regs 40 1000 50 100 200) .s1 (some 0x5C)
def narrowEngine : Engine := ⟨regs 0 0 0 0 105, ⟨0, 0, .s0⟩, none, []⟩
def wideEngine : Engine := ⟨regs 40 1000 50 100 200, ⟨0, 0, .s0⟩, none, []⟩
/-- A Wide engine whose history lies outside its range: both its sample arguments leave int16. -/
def farEngine : Engine := ⟨regs 0 0 32767 32767 0, ⟨0, 0, .s0⟩, none, []⟩
def far : State := busy .wide [0, 0, 0, 0, 0, 0] (regs 0 0 32767 32767 0) .s0 none
/-- A Wide engine whose sample arguments are in int16 at slot 0 and, after it, not at slot 1. -/
def lateEngine : Engine := ⟨regs 0 0 (-32768) 32767 20000, ⟨0, 0, .s0⟩, none, []⟩
def late : State := busy .wide [0, 0, 0, 0, 0, 0] (regs 0 0 (-32768) 32767 20000) .s0 none

theorem witness_EveryByteIsAValidCodedByte :
    (RowKind.byteFormat = .byteFormat → (Selection.mk .wide .s0).slot = .s0) ∧ (RowKind.variant = .byteFormat → (Selection.mk .wide .s2).slot = .s0) := by decide
theorem witness_VariantDecodesExactlyWhereItsRowMatches : (Instr.ws1_3).kind = .variant ∧
    decodeVariant ⟨.wide, .s1⟩ 0xFF#8 = .ws1_3 ∧ decodeVariant ⟨.wide, .s1⟩ 0xF7#8 ≠ .ws1_3 := by decide
/-- The boundary values v = 3 and v = 4 of the two branches. -/
theorem witness_MirroredCodedValuesGiveComplementSteps : testTables.wideStride.deltasOk = true ∧
    (4 : Fin (2 * 4)).val = 2 * 4 - 1 - (3 : Fin (2 * 4)).val ∧ (3 : Fin (2 * 4)).val < 4 ∧ 4 ≤ (4 : Fin (2 * 4)).val := by decide
theorem witness_RowIsBits10To4OfIndex : 0 ≤ (2047#16).toInt := by decide
theorem witness_DecodeStepIsTotalAndAdvancesIndex : testTables.conforms = true := testTables_conform
/-- The TEST bound 6400 = 32 · 200 (95 §2.3). -/
theorem witness_IndexStaysWithinThirtyTwoTimesLargestDelta : (0 : Int) ≤ 200 ∧ (200 : Int) ≤ 1023 ∧
    (∀ u : Fin (2 * 4), (testTables.wideStride.deltas[u.val]).toInt ≤ 200) ∧
    0 ≤ (regs 6400 0 0 0 0).index.toInt ∧ (regs 6400 0 0 0 0).index.toInt ≤ 32 * 200 := by decide
theorem witness_AsymmetricClipValues : (32767 : Int) < 32768 ∧ (-32769 : Int) < -32768 ∧ (-32768 : Int) ≤ -32768 ∧ (32767 : Int) ≤ 32767 := by decide
theorem witness_ReorderBytesDuplicatesTheHighByte : (0x1234#16).extractLsb' 8 8 = (0x12FF#16).extractLsb' 8 8 := by decide
/-- The history of W11 (95 §2.5), at the lower boundary. -/
theorem witness_WideSynthesizerFeedsBackAndInterpolates : (regs 0 32767 (-16384) (-16384) (-1)).historyOk := by
  unfold ChannelState.historyOk; decide
/-- The edges, worked out by hand with step 0 and level 0: arguments 32767 and 32767 against 32768 and 32767, and -32768 and -32768 against -32768 and -32769. -/
theorem witness_WideSynthesizerStopsExactlyOutsideInt16 :
    wideArgumentsOk (regs 0 0 0 32767 0) (0#16).toInt ∧ ¬ wideArgumentsOk (regs 0 0 1 32767 0) (0#16).toInt ∧
    wideArgumentsOk (regs 0 0 0 (-32768) 0) (0#16).toInt ∧ ¬ wideArgumentsOk (regs 0 0 (-1) (-32768) 0) (0#16).toInt := by
  unfold wideArgumentsOk; decide
theorem witness_RegisterStoreNeedsInt16 : ((-32768 : Int) ≤ -32768 ∧ (-32768 : Int) ≤ 32767) ∧ ¬ ((-32768 : Int) ≤ 32768 ∧ (32768 : Int) ≤ 32767) := by decide
theorem witness_SlotOperationsKeepRegisterRanges : testTables.conforms = true ∧ narrowEngine.cs.InRange .narrow ∧ wideEngine.cs.InRange .wide :=
  ⟨testTables_conform, ⟨by decide, by decide, by decide, ⟨rfl, rfl, rfl, by decide, by decide⟩⟩,
    ⟨by decide, by decide, by decide, by unfold ChannelState.modeRange ChannelState.historyOk; decide⟩⟩
theorem witness_NarrowSlotOperationsComplete : narrow0.rom.conforms = true ∧ narrow0.cmd = some (bound .narrow [0x5C, 0, 0]) ∧
    narrow0.selected = some (0, narrowEngine) := ⟨testTables_conform, by decide, by decide⟩
theorem witness_NarrowVariantsComplete : narrow0.rom.conforms = true ∧ narrow0.cmd = some (bound .narrow [0x5C, 0, 0]) ∧
    narrow0.selected = some (0, narrowEngine) := witness_NarrowSlotOperationsComplete
theorem witness_WideSlotOperationsComplete : wide0.rom.conforms = true ∧ wide0.cmd = some (bound .wide [0x5C, 0, 0, 0, 0, 0]) ∧
    wide0.selected = some (0, wideEngine) ∧
    wideArgumentsOk wideEngine.cs (stepValue wide0.rom.wideStride wideEngine.cs.index (7#3).toFin) ∧
    wideArgumentsOk wideEngine.cs (stepValue wide0.rom.narrowStride wideEngine.cs.index (3#2).toFin) :=
  ⟨testTables_conform, by decide +kernel, by decide +kernel, by unfold wideArgumentsOk; decide +kernel, by unfold wideArgumentsOk; decide +kernel⟩
theorem witness_WideVariantsComplete : wide0.rom.conforms = true ∧ wide0.cmd = some (bound .wide [0x5C, 0, 0, 0, 0, 0]) ∧
    wide0.selected = some (0, wideEngine) ∧
    wideArgumentsOk wideEngine.cs (stepValue wide0.rom.wideStride wideEngine.cs.index (7#3).toFin) ∧
    wideArgumentsOk wideEngine.cs (stepValue wide0.rom.narrowStride wideEngine.cs.index (3#2).toFin) := witness_WideSlotOperationsComplete
theorem witness_ByteFormatsCompleteAsThreeSlotOperations : wide0.rom.conforms = true ∧ wide0.cmd = some (bound .wide [0x5C, 0, 0, 0, 0, 0]) ∧
    wide0.selected = some (0, wideEngine) ∧ wideEngine.cs.historyOk :=
  ⟨testTables_conform, by decide, by decide, by unfold ChannelState.historyOk; decide⟩
theorem witness_InstructionsChangeOnlyTheirEngine : ∃ t, exec (.ns1 3) narrow0 = .next t := next_of_seen (by decide +kernel)
theorem witness_InstructionsFaultOnAbsentState : State.reset.cmd = none ∧
    ({ narrow0 with engines := [] } : State).cmd = some (bound .narrow [0x5C, 0, 0]) ∧ ({ narrow0 with engines := [] } : State).selected = none := by decide
theorem witness_WideSlotOperationsStopOutsideInt16 : far.rom.conforms = true ∧ far.cmd = some (bound .wide [0, 0, 0, 0, 0, 0]) ∧
    far.selected = some (0, farEngine) ∧
    ¬ wideArgumentsOk farEngine.cs (stepValue far.rom.wideStride farEngine.cs.index (0#3).toFin) ∧
    ¬ wideArgumentsOk farEngine.cs (stepValue far.rom.narrowStride farEngine.cs.index (0#2).toFin) :=
  ⟨testTables_conform, by decide, by decide, by unfold wideArgumentsOk; decide, by unfold wideArgumentsOk; decide⟩
/-- The clause of WBYTE that stops at slot 1: slot 0's arguments hold, and after its effect (factor 506, history 32767 and 10018) the first argument of slot 1 is 32768 or more. -/
theorem witness_WbyteStopsAtSlot1 : late.rom.conforms = true ∧ late.cmd = some (bound .wide [0, 0, 0, 0, 0, 0]) ∧
    late.selected = some (0, lateEngine) ∧
    wideArgumentsOk lateEngine.cs (stepValue late.rom.wideStride lateEngine.cs.index (0#3).toFin) ∧
    (seen (exec (.ws0 0) late)).map (fun p => p.1) = some [0, 506, 32767, 10018, 309] ∧
    ¬ wideArgumentsOk (regs 0 506 32767 10018 309) (stepValue late.rom.narrowStride 0 (0#2).toFin) ∧
    seen (exec (.wbyte 0 0 0) late) = none :=
  ⟨testTables_conform, by decide +kernel, by decide +kernel, by unfold wideArgumentsOk; decide +kernel, by decide +kernel,
    by unfold wideArgumentsOk; decide +kernel, by decide +kernel⟩
/-- The clause of WBYTE that completes: the arguments of slots 0 and 1 hold, as in every engine whose history is in its range. -/
theorem witness_WbyteCompletes : wide0.rom.conforms = true ∧ wide0.cmd = some (bound .wide [0x5C, 0, 0, 0, 0, 0]) ∧
    wide0.selected = some (0, wideEngine) ∧
    wideArgumentsOk wideEngine.cs (stepValue wide0.rom.wideStride wideEngine.cs.index (2#3).toFin) ∧
    (seen (exec (.wbyte 2 3 4) wide0)).isSome = true :=
  ⟨testTables_conform, by decide +kernel, by decide +kernel, by unfold wideArgumentsOk; decide +kernel, by decide +kernel⟩
/-- The boundary offsets 0 and len - 1 inside, -1 and len outside. -/
theorem witness_MemReadReturnsTheHostsBytes :
    memRead (latchCommand ⟨.narrow, 1, 1, [7, 0, 9]⟩) 0 = .ok 7 ∧ memRead (latchCommand ⟨.narrow, 1, 1, [7, 0, 9]⟩) 2 = .ok 9 ∧
    memRead (latchCommand ⟨.narrow, 1, 1, [7, 0, 9]⟩) (-1) = .error (.offsetOutOfRange (-1)) ∧
    memRead (latchCommand ⟨.narrow, 1, 1, [7, 0, 9]⟩) 3 = .error (.offsetOutOfRange 3) := by decide
theorem witness_AddressesCoverTheRequiredBytesOnce : (1 ≤ 2) ∧ (1 < 2 ∧ 1 < 2 ∧ 5 < bytesPerFrame .wide) ∧ 23 < 2 * 2 * bytesPerFrame .wide := by decide
theorem witness_AddressesStayInRangeForEveryLaneStride : (1 : Int) ≤ 1 ∧ (1 : Int) ≤ 6 ∧ (0 : Int) ≤ 1 ∧ (1 : Int) < 2 ∧ (0 : Int) ≤ 1 ∧ (5 : Int) < 6 := by decide
/-- The last slot of a byte inside a frame, and of a frame. -/
theorem witness_CursorAdvancesInLoopOrder : (Cursor.mk 0 1 .s2).k < 3 ∧ (Cursor.mk 0 1 .s2).k + 1 < 3 ∧ (Cursor.mk 0 2 .s2).k < 3 ∧ (Cursor.mk 0 2 .s2).k + 1 = 3 := by decide
theorem witness_StepRunsTheDecodedInstruction :
    (narrow0.rom.conforms = true ∧ narrow0.status = .busy ∧ narrow0.cmd = some (bound .narrow [0x5C, 0, 0]) ∧ narrow0.selected = some (0, narrowEngine) ∧
      decode .variant ⟨.narrow, narrowEngine.cur.l⟩ [0x5C] = .ok (.ns0_4, []) ∧ (Instr.ns0_4).wellFormed ⟨.narrow, narrowEngine.cur.l⟩ = true ∧
      narrowEngine.cur.l = .s0 ∧ memRead (bound .narrow [0x5C, 0, 0]) (addr (bound .narrow [0x5C, 0, 0]) 0 0 0) = .ok 0x5C) ∧
    (wide1.status = .busy ∧ wide1.cmd = some (bound .wide [0x5C, 0, 0, 0, 0, 0]) ∧
      wide1.selected = some (0, ⟨regs 40 1000 50 100 200, ⟨0, 0, .s1⟩, some 0x5C, []⟩) ∧
      decode .variant ⟨.wide, .s1⟩ [0x5C] = .ok (.ws1_3, []) ∧ (Instr.ws1_3).wellFormed ⟨.wide, .s1⟩ = true) :=
  ⟨⟨testTables_conform, by decide⟩, by decide⟩
/-- A buffer of no bytes under a running command. -/
theorem witness_FailedFetchAbortsTheCommand :
    (busy .narrow [] (regs 0 0 0 0 105) .s0 none).rom.conforms = true ∧ (busy .narrow [] (regs 0 0 0 0 105) .s0 none).status = .busy ∧
    (busy .narrow [] (regs 0 0 0 0 105) .s0 none).cmd = some (bound .narrow []) ∧
    (busy .narrow [] (regs 0 0 0 0 105) .s0 none).selected = some (0, narrowEngine) ∧ narrowEngine.cur.l = .s0 ∧
    ¬ (0 ≤ addr (bound .narrow []) 0 narrowEngine.cur.f narrowEngine.cur.k ∧
       addr (bound .narrow []) 0 narrowEngine.cur.f narrowEngine.cur.k < (bound .narrow []).bufLen) := ⟨testTables_conform, by decide⟩
theorem witness_EmptyLatchFaults :
    (busy .wide [0] (regs 0 0 0 0 0) .s2 none).rom.conforms = true ∧ (busy .wide [0] (regs 0 0 0 0 0) .s2 none).status = .busy ∧
    (busy .wide [0] (regs 0 0 0 0 0) .s2 none).cmd = some (bound .wide [0]) ∧
    (busy .wide [0] (regs 0 0 0 0 0) .s2 none).selected = some (0, ⟨regs 0 0 0 0 0, ⟨0, 0, .s2⟩, none, []⟩) ∧
    Slot.s2 ≠ Slot.s0 := ⟨testTables_conform, by decide⟩
theorem witness_MachineWithoutCommandStaysAsItIs : (State.powerOn testTables).rom.conforms = true ∧
    (State.powerOn testTables).status ≠ .busy ∧ (State.powerOn testTables).requests = [] := ⟨testTables_conform, by decide⟩
/-- Both conditions hold: E4 of 95 §2.6; each alone: E2, E3. Then the boundary of legal counts, one channel and no frames. -/
theorem witness_IllegalCountsAbortAsInvalidParameters :
    ((State.powerOn testTables).issue ⟨.narrow, -1, -1, []⟩).rom.conforms = true ∧
    ((State.powerOn testTables).issue ⟨.narrow, -1, -1, []⟩).status ≠ .busy ∧
    ((State.powerOn testTables).issue ⟨.narrow, -1, -1, []⟩).requests = [⟨.narrow, -1, -1, []⟩] ∧
    ((-1 : Int) ≤ 0 ∨ (-1 : Int) < 0) ∧ ((0 : Int) ≤ 0 ∨ (1 : Int) < 0) ∧ ((1 : Int) ≤ 0 ∨ (-1 : Int) < 0) ∧
    ((State.powerOn testTables).issue ⟨.narrow, 0, 1, []⟩).requests = [⟨.narrow, 0, 1, []⟩] ∧ (1 : Int) ≤ 1 ∧ (0 : Int) ≤ 0 := ⟨testTables_conform, by decide⟩
/-- E7 of 95 §2.6: required 12, length 11. -/
theorem witness_ShortBufferAbortsAsOutOfRangeAccess :
    ((State.powerOn testTables).issue ⟨.narrow, 2, 2, List.replicate 11 0⟩).rom.conforms = true ∧
    ((State.powerOn testTables).issue ⟨.narrow, 2, 2, List.replicate 11 0⟩).status ≠ .busy ∧
    ((State.powerOn testTables).issue ⟨.narrow, 2, 2, List.replicate 11 0⟩).requests = [⟨.narrow, 2, 2, List.replicate 11 0⟩] ∧
    (1 : Int) ≤ 2 ∧ (0 : Int) ≤ 2 ∧ (((List.replicate 11 (0 : Byte)).length : Nat) : Int) < 2 * 2 * (bytesPerFrame .narrow : Nat) := ⟨testTables_conform, by decide⟩
/-- A legal command with a tail byte, and the boundary of no frames (S1 of 95 §2.6). -/
theorem witness_LegalCommandAllocatesFreshChannels :
    ((State.powerOn testTables).issue ⟨.narrow, 1, 1, [0, 0, 0, 0]⟩).rom.conforms = true ∧
    ((State.powerOn testTables).issue ⟨.narrow, 1, 1, [0, 0, 0, 0]⟩).status ≠ .busy ∧
    ((State.powerOn testTables).issue ⟨.narrow, 1, 1, [0, 0, 0, 0]⟩).requests = [⟨.narrow, 1, 1, [0, 0, 0, 0]⟩] ∧
    (Command.mk .narrow 1 1 [0, 0, 0, 0]).Legal ∧ (Command.mk .narrow 0 1 []).Legal :=
  ⟨testTables_conform, by decide, by decide, ⟨by decide, by decide, by decide⟩, ⟨by decide, by decide, by decide⟩⟩
theorem witness_CompletionReturnsTheOutputs :
    let s : State := { narrow0 with engines := [⟨regs 384 0 0 0 1439, ⟨1, 0, .s0⟩, some 0xE3, [0, 0, 0]⟩] }
    s.rom.conforms = true ∧ s.status = .busy ∧ s.cmd = some (bound .narrow [0x5C, 0, 0]) ∧
    ∀ e ∈ s.engines, (bound .narrow [0x5C, 0, 0]).frameCount ≤ e.cur.f := ⟨testTables_conform, by decide⟩
theorem witness_ThreeStepsRunOneCodedByte :
    wide0.rom.conforms = true ∧ wide0.status = .busy ∧ wide0.cmd = some (bound .wide [0x5C, 0, 0, 0, 0, 0]) ∧ wide0.turns = [] ∧
    wide0.selected = some (0, wideEngine) ∧ wideEngine.cur.l = .s0 ∧
    memRead (bound .wide [0x5C, 0, 0, 0, 0, 0]) (addr (bound .wide [0x5C, 0, 0, 0, 0, 0]) 0 0 0) = .ok 0x5C ∧ wideEngine.cs.historyOk :=
  ⟨testTables_conform, by decide, by decide, by decide, by decide, by decide, by decide, by unfold ChannelState.historyOk; decide⟩

/-- The Narrow machine of the witnesses is in the invariant. -/
theorem narrow0_inv : narrow0.Inv := by
  show State.BusyInv narrow0 (bound .narrow [0x5C, 0, 0])
  refine ⟨rfl, rfl, ⟨by decide, by decide, by decide, by decide, by decide⟩, rfl, ?_⟩
  intro c e h
  match c, h with
  | 0, h =>
    simp only [narrow0, busy, List.getElem?_cons_zero, Option.some.injEq] at h
    subst h
    exact ⟨⟨by decide, by decide, by decide, ⟨rfl, rfl, rfl, by decide, by decide⟩⟩, by decide, by decide, by decide, by decide, rfl⟩
  | c + 1, h => simp [narrow0, busy] at h

theorem powerOn_inv : (State.powerOn testTables).Inv := ⟨rfl, rfl, rfl⟩

theorem witness_EveryStepKeepsTheInvariant : narrow0.Inv ∧ ∃ t, step narrow0 = .next t :=
  ⟨narrow0_inv, next_of_seen (by decide +kernel)⟩
theorem witness_InvariantMachineAlwaysSteps : narrow0.Inv ∧ narrow0.rom.conforms = true := ⟨narrow0_inv, testTables_conform⟩
theorem witness_ErrorCodeIsZeroOutsideError : narrow0.Inv ∧ ((State.powerOn testTables).raise (.offsetOutOfRange 5)).Inv :=
  ⟨narrow0_inv, rfl, _, rfl, rfl⟩
theorem witness_RomAndCommandAreConstant : narrow0.status = .busy ∧ ∃ t, step narrow0 = .next t :=
  ⟨by decide, witness_EveryStepKeepsTheInvariant.2⟩
theorem witness_DecodeRunsTheLoopNest : (State.powerOn testTables).Inv ∧ (State.powerOn testTables).rom.conforms = true ∧
    (State.powerOn testTables).status ≠ .busy ∧ (Command.mk .wide 1 2 (List.replicate 12 0x5C)).Legal :=
  ⟨powerOn_inv, testTables_conform, by decide, ⟨by decide, by decide, by decide⟩⟩
theorem witness_OutputLengthLaw : (State.powerOn testTables).Inv ∧ (State.powerOn testTables).rom.conforms = true ∧
    (State.powerOn testTables).status ≠ .busy ∧ (Command.mk .wide 1 2 (List.replicate 12 0x5C)).Legal := witness_DecodeRunsTheLoopNest
theorem witness_EveryScheduleGivesTheSameResult : narrow0.Inv ∧ narrow0.rom.conforms = true ∧ narrow0.status = .busy :=
  ⟨narrow0_inv, testTables_conform, by decide⟩
theorem witness_TailBytesDoNotAffectTheResult : (State.powerOn testTables).Inv ∧ (State.powerOn testTables).rom.conforms = true ∧
    (State.powerOn testTables).status ≠ .busy ∧ (Command.mk .wide 1 2 (List.replicate 13 0x5C)).Legal :=
  ⟨powerOn_inv, testTables_conform, by decide, ⟨by decide, by decide, by decide⟩⟩
theorem witness_ChannelsAreIndependent : (State.powerOn testTables).Inv ∧ (State.powerOn testTables).rom.conforms = true ∧
    (State.powerOn testTables).status ≠ .busy ∧ (Command.mk .wide 1 2 (List.replicate 12 0x5C)).Legal ∧ ((1 : Nat) : Int) < 2 :=
  ⟨powerOn_inv, testTables_conform, by decide, ⟨by decide, by decide, by decide⟩, by decide⟩
theorem witness_CommandsAreIndependentAndDeterministic : (State.powerOn testTables).Inv ∧
    ((State.powerOn testTables).raise (.offsetOutOfRange 5)).Inv ∧ (State.powerOn testTables).rom.conforms = true ∧
    ((State.powerOn testTables).raise (.offsetOutOfRange 5)).rom = (State.powerOn testTables).rom ∧
    (State.powerOn testTables).status ≠ .busy ∧ ((State.powerOn testTables).raise (.offsetOutOfRange 5)).status ≠ .busy :=
  ⟨powerOn_inv, ⟨rfl, _, rfl, rfl⟩, testTables_conform, rfl, by decide, by decide⟩

end Sys2Proof.Machine.Tests
end

/-! Register stores and Wide slot operations outside int16 (00 R7, 92 D7). -/

namespace Sys2Proof.Machine

/-! ## The meanings of the Wide slot operations and of WBYTE -/

theorem exec_ws0 (v : BitVec 3) (s : State) :
    exec (.ws0 v) s = runOnSelected (fun b e => slotOp s.rom.wideStride b .wide v.toFin e) s := rfl

theorem exec_ws1 (v : BitVec 2) (s : State) :
    exec (.ws1 v) s = runOnSelected (fun b e => slotOp s.rom.narrowStride b .wide v.toFin e) s := rfl

theorem exec_ws2 (v : BitVec 3) (s : State) :
    exec (.ws2 v) s = runOnSelected (fun b e => slotOp s.rom.wideStride b .wide v.toFin e) s := rfl

theorem exec_wbyte (v₀ : BitVec 3) (v₁ : BitVec 2) (v₂ : BitVec 3) (s : State) :
    exec (.wbyte v₀ v₁ v₂) s = runOnSelected (fun b e => byteOps s.rom b .wide v₀ v₁ v₂ e) s := rfl

/-! ## The three slots of a coded byte, one after the other (42 R80) -/

section ByteOps

variable {rom : Tables} {b : Bound} {m : Mode} {v₀ : BitVec 3} {v₁ : BitVec 2} {e e₁ e₂ : Engine} {f : Fault}

theorem byteOps_slot0_fault (h₀ : slotOp rom.wideStride b m v₀.toFin e = .error f) (v₁ : BitVec 2) (v₂ : BitVec 3) :
    byteOps rom b m v₀ v₁ v₂ e = .error f := by
  simp only [byteOps, h₀, bind, Except.bind]

theorem byteOps_slot1_fault (h₀ : slotOp rom.wideStride b m v₀.toFin e = .ok e₁)
    (h₁ : slotOp rom.narrowStride b m v₁.toFin e₁ = .error f) (v₂ : BitVec 3) :
    byteOps rom b m v₀ v₁ v₂ e = .error f := by
  simp only [byteOps, h₀, h₁, bind, Except.bind]

/-- Once slots 0 and 1 complete, slot 2 decides. -/
theorem byteOps_eq_slot2 (h₀ : slotOp rom.wideStride b m v₀.toFin e = .ok e₁)
    (h₁ : slotOp rom.narrowStride b m v₁.toFin e₁ = .ok e₂) (v₂ : BitVec 3) :
    byteOps rom b m v₀ v₁ v₂ e = slotOp rom.wideStride b m v₂.toFin e₂ := by
  simp only [byteOps, h₀, h₁, bind, Except.bind]

end ByteOps

/-! ## The obligations -/

/-- Settles O15: the store is defined by the int16 test, and the word of a value in int16 has that value. -/
theorem registerStoreNeedsInt16 : Obligations.RegisterStoreNeedsInt16 := fun _ =>
  ⟨fun h => ⟨_, storeInt16_ok h, toInt_ofInt16 h⟩, storeInt16_fault⟩

/-- Settles O25: each slot of a move stops or completes by its own arguments; slot 2 of WBYTE completes because the
two slots before it leave a history in its range (10 R22). -/
theorem wideSlotOperationsStopOutsideInt16 : Obligations.WideSlotOperationsStopOutsideInt16 := by
  intro s b c e hrom hcmd hsel
  have hwide := Tables.conforms_wideDeltas hrom
  have hnarrow := Tables.conforms_narrowDeltas hrom
  refine ⟨fun v hv => ⟨?_, ?_⟩, fun v hv => ?_, fun v₀ v₁ v₂ => ⟨fun hv => ?_, fun hv => ?_⟩⟩
  · rw [exec_ws0]
    exact runOnSelected_fault hcmd hsel (slotOp_wide_fault hwide b v.toFin e hv)
  · rw [exec_ws2]
    exact runOnSelected_fault hcmd hsel (slotOp_wide_fault hwide b v.toFin e hv)
  · rw [exec_ws1]
    exact runOnSelected_fault hcmd hsel (slotOp_wide_fault hnarrow b v.toFin e hv)
  · rw [exec_wbyte]
    exact runOnSelected_fault hcmd hsel (byteOps_slot0_fault (slotOp_wide_fault hwide b v₀.toFin e hv) v₁ v₂)
  · obtain ⟨e₁, h₀, eff₀⟩ := slotOp_wide hwide b v₀.toFin e hv
    refine ⟨e₁, eff₀, fun hv₁ => ?_, fun hv₁ => ?_⟩
    · rw [exec_wbyte]
      exact runOnSelected_fault hcmd hsel (byteOps_slot1_fault h₀ (slotOp_wide_fault hnarrow b v₁.toFin e₁ hv₁) v₂)
    · obtain ⟨e₂, h₁, eff₁⟩ := slotOp_wide hnarrow b v₁.toFin e₁ hv₁
      have hhist : e₂.cs.historyOk := eff₀.historyOk_of_two eff₁
      obtain ⟨e₃, h₂, eff₂⟩ := slotOp_wide hwide b v₂.toFin e₂ (hhist.arguments _)
      refine ⟨e₂, e₃, eff₁, eff₂, ?_⟩
      rw [exec_wbyte]
      exact runOnSelected_next hcmd hsel ((byteOps_eq_slot2 h₀ h₁ v₂).trans h₂)

end Sys2Proof.Machine

/-! The invariant of the machine and the frame of its instructions (10; 42 R80, R82, R90). -/

namespace Sys2Proof.Machine

/-! ## The ROM's constraints, entry by entry (10 R27) -/

theorem Family.stepsOk_iff {s : Nat} {t : Family s} :
    t.stepsOk = true ↔ ∀ r j : Nat, ∀ hr : r < 128, ∀ hj : j < s, 0 ≤ (t.steps[r][j]).toInt := by
  refine ⟨fun h r j hr hj => Family.step_nonneg h r j hr hj, fun h => ?_⟩
  simp only [Family.stepsOk, List.all_eq_true, decide_eq_true_eq, Vector.mem_toList_iff]
  intro row hrow w hw
  obtain ⟨r, hr, rfl⟩ := Vector.getElem_of_mem hrow
  obtain ⟨j, hj, rfl⟩ := Vector.getElem_of_mem hw
  exact h r j hr hj

theorem Family.deltasOk_iff {s : Nat} {t : Family s} :
    t.deltasOk = true ↔ ∀ v : Nat, ∀ hv : v < 2 * s, (t.deltas[v]).toInt ≤ 1023 := by
  refine ⟨fun h v hv => Family.delta_le h v hv, fun h => ?_⟩
  simp only [Family.deltasOk, List.all_eq_true, decide_eq_true_eq, Vector.mem_toList_iff]
  intro w hw
  obtain ⟨v, hv, rfl⟩ := Vector.getElem_of_mem hw
  exact h v hv

theorem Tables.conforms_iff {t : Tables} :
    t.conforms = true ↔
      t.wideStride.stepsOk = true ∧ t.narrowStride.stepsOk = true ∧ t.wideStride.deltasOk = true ∧
      t.narrowStride.deltasOk = true ∧ (t.wst[0][0]).toInt = 37 ∧ (t.wdt[0]).toInt = -13 := by
  simp only [Tables.conforms, Tables.knownOk, Bool.and_eq_true, decide_eq_true_eq, and_assoc]

/-! ## The registers' ranges over a slot operation (10 R20 to R22) -/

theorem indexAfter_range {s : Nat} {t : Family s} (h : t.deltasOk = true) {index : Word} (v : Fin (2 * s))
    (h0 : 0 ≤ index.toInt) (h1 : index.toInt ≤ 32736) : 0 ≤ indexAfter t index v ∧ indexAfter t index v ≤ 32736 := by
  have hd := Family.delta_le h v.val v.isLt
  unfold indexAfter
  omega

theorem NarrowEffect.inRange {s : Nat} {t : Family s} (h : t.deltasOk = true) {v : Fin (2 * s)} {bpf : Nat} {e e' : Engine}
    (w : NarrowEffect t v bpf e e') (hr : e.cs.InRange .narrow) : e'.cs.InRange .narrow := by
  obtain ⟨hlow, hhigh, hfactor, hf, hp2, hp, -, -⟩ := hr
  obtain ⟨ilow, ihigh⟩ := indexAfter_range h v hlow hhigh
  have hlevel := leak_range (currentOf_range (stepValue t e.cs.index v) e.cs.level.toInt)
  rw [leak, sar_3, ← w.level] at hlevel
  exact ⟨w.index ▸ ilow, w.index ▸ ihigh, w.factor ▸ hfactor,
    w.factor.trans hf, w.prev2.trans hp2, w.previous.trans hp, hlevel⟩

theorem WideEffect.inRange {s : Nat} {t : Family s} (h : t.deltasOk = true) {v : Fin (2 * s)} {bpf : Nat} {e e' : Engine}
    (w : WideEffect t v bpf e e') (hr : e.cs.InRange .wide) : e'.cs.InRange .wide := by
  obtain ⟨hlow, hhigh, -, -, -, hhist⟩ := hr
  obtain ⟨ilow, ihigh⟩ := indexAfter_range h v hlow hhigh
  obtain ⟨_, hsyn, -⟩ := w.synth
  have hfactor := factorAfter_range e.cs (stepValue t e.cs.index v)
  have hlevel := wideLevel_range (currentOf_range (stepValue t e.cs.index v) e.cs.level.toInt) hfactor
  rw [← hsyn.factor] at hfactor
  rw [← hsyn.level] at hlevel
  exact ⟨w.index ▸ ilow, w.index ▸ ihigh, hfactor.1, hlevel.1, hlevel.2, w.historyOk hhist⟩

/-- A slot operation under conforming deltas completes and keeps the ranges, in both modes. -/
theorem slotOp_keeps_inRange {s : Nat} {t : Family s} (h : t.deltasOk = true) (b : Bound) {m : Mode} (v : Fin (2 * s)) {e : Engine}
    (hr : e.cs.InRange m) : ∃ e', slotOp t b m v e = .ok e' ∧ e'.cs.InRange m := by
  cases m with
  | narrow =>
    obtain ⟨e', ho, w⟩ := slotOp_narrow h b v e
    exact ⟨e', ho, w.inRange h hr⟩
  | wide =>
    have hhist : e.cs.historyOk := hr.byMode.2.2
    obtain ⟨e', ho, w⟩ := slotOp_wide h b v e (hhist.arguments _)
    exact ⟨e', ho, w.inRange h hr⟩

/-! ## The frame of the operations on an engine (42 R80, R83, R90) -/

/-- What n slot operations of mode m leave of an engine whatever their codedValues: the latch stays, the cursor advances
n times, n slots' samples are appended, and in Narrow the registers of the Wide synthesizer stay (10 R19). -/
structure Engine.Moved (m : Mode) (bpf n : Nat) (e e' : Engine) : Prop where
  latch  : e'.latch = e.latch
  cur    : e'.cur = (Cursor.advance bpf)^[n] e.cur
  out    : ∃ samples, samples.length = samplesPerSlot m * n ∧ e'.out = e.out ++ samples
  narrow : m = .narrow → e'.cs.factor = e.cs.factor ∧ e'.cs.prev2 = e.cs.prev2 ∧ e'.cs.previous = e.cs.previous

theorem Engine.Moved.trans {m : Mode} {bpf n n' : Nat} {e₁ e₂ e₃ : Engine} (h : e₁.Moved m bpf n e₂) (h' : e₂.Moved m bpf n' e₃) :
    e₁.Moved m bpf (n' + n) e₃ := by
  obtain ⟨xs, hxs, hout⟩ := h.out
  obtain ⟨ys, hys, hout'⟩ := h'.out
  refine ⟨h'.latch.trans h.latch, ?_, ⟨xs ++ ys, ?_, ?_⟩, fun hm => ?_⟩
  · rw [h'.cur, h.cur, Function.iterate_add_apply]
  · rw [List.length_append, hxs, hys, ← Nat.mul_add, Nat.add_comm]
  · rw [hout', hout, List.append_assoc]
  · obtain ⟨hf, hp2, hp⟩ := h.narrow hm
    obtain ⟨hf', hp2', hp'⟩ := h'.narrow hm
    exact ⟨hf'.trans hf, hp2'.trans hp2, hp'.trans hp⟩

/-- A synthesizer that answers gives the mode's number of samples (10 R17), and the Narrow one writes none of the Wide one's registers. -/
theorem synthesize_frame {m : Mode} {cs cs' : ChannelState} {step : Word} {samples : List Word}
    (h : synthesize m cs step = .ok (cs', samples)) :
    samples.length = samplesPerSlot m ∧
      (m = .narrow → cs'.factor = cs.factor ∧ cs'.prev2 = cs.prev2 ∧ cs'.previous = cs.previous) := by
  cases m with
  | narrow =>
    have hn := (narrowSynth_ok cs step).symm.trans h
    cases hn
    exact ⟨rfl, fun _ => ⟨rfl, rfl, rfl⟩⟩
  | wide =>
    refine ⟨?_, nofun⟩
    by_cases ha : wideArgumentsOk cs step.toInt
    · obtain ⟨_, _, hw, hsyn⟩ := wideSynth_ok ha
      cases hw.symm.trans h
      rw [hsyn.samples]
      rfl
    · cases (wideSynth_fault ha).symm.trans h

theorem variantOp_moved {s : Nat} {t : Family s} {b : Bound} {m : Mode} {br : Branch} {j : Fin s} {d : Fin (2 * s)} {e e' : Engine}
    (h : variantOp t b m br j d e = .ok e') : e.Moved m (bytesPerFrame b.mode) 1 e' := by
  unfold variantOp at h
  cases hd : stepWith t br j d e.cs with
  | error f => simp [hd, bind, Except.bind] at h
  | ok p =>
    have he : emit b m e p = .ok e' := by simpa [hd, bind, Except.bind] using h
    obtain ⟨cs, samples, hsyn, rfl⟩ := emit_inv he
    obtain ⟨hlen, hnarrow⟩ := synthesize_frame hsyn
    rw [stepWith_frame hd] at hnarrow
    exact ⟨rfl, rfl, ⟨samples, by rw [hlen, Nat.mul_one], rfl⟩, hnarrow⟩

theorem slotOp_moved {s : Nat} {t : Family s} {b : Bound} {m : Mode} {v : Fin (2 * s)} {e e' : Engine}
    (h : slotOp t b m v e = .ok e') : e.Moved m (bytesPerFrame b.mode) 1 e' :=
  variantOp_moved ((variantOp_eq_slotOp t b m v e).trans h)

/-- byteOps, when it answers, is three slot operations that answered (30 R50, R51). -/
theorem byteOps_inv {rom : Tables} {bd : Bound} {m : Mode} {a : BitVec 3} {b : BitVec 2} {c : BitVec 3} {e e₃ : Engine}
    (h : byteOps rom bd m a b c e = .ok e₃) :
    ∃ e₁ e₂, slotOp rom.wideStride bd m a.toFin e = .ok e₁ ∧ slotOp rom.narrowStride bd m b.toFin e₁ = .ok e₂ ∧
      slotOp rom.wideStride bd m c.toFin e₂ = .ok e₃ := by
  cases h₀ : slotOp rom.wideStride bd m a.toFin e with
  | error f => cases (byteOps_slot0_fault h₀ b c).symm.trans h
  | ok e₁ =>
    cases h₁ : slotOp rom.narrowStride bd m b.toFin e₁ with
    | error f => cases (byteOps_slot1_fault h₀ h₁ c).symm.trans h
    | ok e₂ => exact ⟨e₁, e₂, rfl, h₁, (byteOps_eq_slot2 h₀ h₁ c).symm.trans h⟩

theorem byteOps_moved {rom : Tables} {bd : Bound} {m : Mode} {a : BitVec 3} {b : BitVec 2} {c : BitVec 3} {e e' : Engine}
    (h : byteOps rom bd m a b c e = .ok e') : e.Moved m (bytesPerFrame bd.mode) 3 e' := by
  obtain ⟨e₁, e₂, h₀, h₁, h₂⟩ := byteOps_inv h
  exact ((slotOp_moved h₀).trans (slotOp_moved h₁)).trans (slotOp_moved h₂)

/-! ## The instructions -/

/-- The three shapes of an instruction's meaning: a byte format, or a written-out variant in one of the two table families
(a slot operation is the variant of its own branch, column and delta index, 30 R54). -/
theorem exec_shapes (i : Instr) (s : State) :
    (∃ a b c, exec i s = runOnSelected (fun bd e => byteOps s.rom bd i.mode a b c e) s) ∨
    (∃ br j d, exec i s = runOnSelected (fun b e => variantOp s.rom.wideStride b i.mode br j d e) s) ∨
    (∃ br j d, exec i s = runOnSelected (fun b e => variantOp s.rom.narrowStride b i.mode br j d e) s) := by
  cases i
  case nbyte a b c | wbyte a b c => exact .inl ⟨a, b, c, rfl⟩
  case ns0 v | ns2 v | ws0 v | ws2 v =>
    exact .inr (.inl ⟨branchOf 4 v.toFin, columnOf 4 v.toFin, v.toFin, rfl⟩)
  case ns1 v | ws1 v =>
    exact .inr (.inr ⟨branchOf 2 v.toFin, columnOf 2 v.toFin, v.toFin, rfl⟩)
  case ns1_0 | ns1_1 | ns1_2 | ns1_3 | ws1_0 | ws1_1 | ws1_2 | ws1_3 => exact .inr (.inr ⟨_, _, _, rfl⟩)
  all_goals exact .inr (.inl ⟨_, _, _, rfl⟩)

/-- An instruction that gives a next state has committed the selected engine after some slot operations of its mode. -/
theorem exec_next_inv {i : Instr} {s t : State} (h : exec i s = .next t) :
    ∃ b c e e' n, s.cmd = some b ∧ s.selected = some (c, e) ∧ e.Moved i.mode (bytesPerFrame b.mode) n e' ∧ t = s.commit c e' := by
  rcases exec_shapes i s with ⟨_, _, _, hx⟩ | ⟨_, _, _, hx⟩ | ⟨_, _, _, hx⟩ <;>
    obtain ⟨b, c, e, e', hb, hsel, ho, rfl⟩ := runOnSelected_inv (hx.symm.trans h)
  · exact ⟨b, c, e, e', 3, hb, hsel, byteOps_moved ho, rfl⟩
  · exact ⟨b, c, e, e', 1, hb, hsel, variantOp_moved ho, rfl⟩
  · exact ⟨b, c, e, e', 1, hb, hsel, variantOp_moved ho, rfl⟩

theorem exec_not_refused (i : Instr) (s : State) (r : Refusal) : exec i s ≠ .refused r := by
  obtain ⟨op, hx⟩ := exec_runs i s
  rw [hx]
  rcases runOnSelected_cases op s with ⟨-, h⟩ | ⟨_, -, -, h⟩ | ⟨_, _, _, -, -, ⟨_, -, h⟩ | ⟨_, -, h⟩⟩ <;> rw [h] <;> nofun

theorem runOnSelected_noCommand {op : Bound → Engine → Except Fault Engine} {s : State} (h : s.cmd = none) :
    runOnSelected op s = .fault .noCommand := by
  simp [runOnSelected, h]

theorem runOnSelected_noEngine {op : Bound → Engine → Except Fault Engine} {s : State} {b : Bound} (hb : s.cmd = some b)
    (h : s.selected = none) : runOnSelected op s = .fault .noEngine := by
  rw [State.selected_eq hb] at h
  simp [runOnSelected, hb, h]

theorem State.selected_engine {s : State} {c : Nat} {e : Engine} (h : s.selected = some (c, e)) : s.engines[c]? = some e := by
  cases hb : s.cmd with
  | none => simp [State.selected, hb] at h
  | some b => exact (State.selectedIn_some ((State.selected_eq hb).symm.trans h)).1

/-- The engine written at an occupied place is read back there. -/
theorem getElem?_set_of_some {es : List Engine} {c : Nat} {e : Engine} (h : es[c]? = some e) (e' : Engine) :
    (es.set c e')[c]? = some e' :=
  List.getElem?_set_self (List.getElem?_eq_some_iff.1 h).1

/-! ## The slot operation that a byte selects (30 R53; 42 R83) -/

/-- slotOp(mode, l, c) on a byte: the codedValue of the selected slot in the slot's family. -/
def byteSlotOp (rom : Tables) (m : Mode) (l : Slot) (v : Byte) (b : Bound) (e : Engine) : Except Fault Engine :=
  match l with
  | .s0 => slotOp rom.wideStride b m (slot0Field m v).toFin e
  | .s1 => slotOp rom.narrowStride b m (midField v).toFin e
  | .s2 => slotOp rom.wideStride b m (slot2Field m v).toFin e

/-- The variant that a byte decodes to runs the slot operation that the byte selects. -/
theorem exec_decodeVariant (m : Mode) (l : Slot) (v : Byte) (s : State) :
    exec (decodeVariant ⟨m, l⟩ v) s = runOnSelected (byteSlotOp s.rom m l v) s := by
  cases m with
  | narrow =>
    cases l with
    | s0 => exact exec_ns0Variant _ s
    | s1 => exact exec_ns1Variant _ s
    | s2 => exact exec_ns2Variant _ s
  | wide =>
    cases l with
    | s0 => exact exec_ws0Variant _ s
    | s1 => exact exec_ws1Variant _ s
    | s2 => exact exec_ws2Variant _ s

theorem byteSlotOp_moved {rom : Tables} {m : Mode} {l : Slot} {v : Byte} {b : Bound} {e e' : Engine}
    (h : byteSlotOp rom m l v b e = .ok e') : e.Moved m (bytesPerFrame b.mode) 1 e' := by
  cases l <;> exact slotOp_moved h

theorem byteSlotOp_keeps_inRange {rom : Tables} (hrom : rom.conforms = true) {m : Mode} (l : Slot) (v : Byte) (b : Bound)
    {e : Engine} (hr : e.cs.InRange m) : ∃ e', byteSlotOp rom m l v b e = .ok e' ∧ e'.cs.InRange m := by
  cases l with
  | s0 => exact slotOp_keeps_inRange (Tables.conforms_wideDeltas hrom) b _ hr
  | s1 => exact slotOp_keeps_inRange (Tables.conforms_narrowDeltas hrom) b _ hr
  | s2 => exact slotOp_keeps_inRange (Tables.conforms_wideDeltas hrom) b _ hr

/-! ## The cursor (42 R80) -/

/-- Everything an advance can do: stay at the byte with a later slot, go to the frame's next byte, or to the next frame. -/
theorem Cursor.advance_cases (bpf : Nat) (u : Cursor) :
    ((u.advance bpf).f = u.f ∧ (u.advance bpf).k = u.k ∧ (u.advance bpf).l ≠ .s0 ∧
      slotNumber (u.advance bpf).l = slotNumber u.l + 1) ∨
    (u.l = .s2 ∧ u.k + 1 ≠ bpf ∧ u.advance bpf = ⟨u.f, u.k + 1, .s0⟩) ∨
    (u.l = .s2 ∧ u.k + 1 = bpf ∧ u.advance bpf = ⟨u.f + 1, 0, .s0⟩) := by
  obtain ⟨f, k, l⟩ := u
  cases l with
  | s0 => exact .inl ⟨rfl, rfl, nofun, rfl⟩
  | s1 => exact .inl ⟨rfl, rfl, nofun, rfl⟩
  | s2 =>
    by_cases hk : k + 1 = bpf
    · exact .inr (.inr ⟨rfl, hk, by simp [Cursor.advance, hk]⟩)
    · exact .inr (.inl ⟨rfl, hk, by simp [Cursor.advance, hk]⟩)

/-- The advance is one slot operation further in the loop nest. -/
theorem Cursor.position_advance (bpf : Nat) (u : Cursor) : (u.advance bpf).position bpf = u.position bpf + 1 := by
  unfold Cursor.position
  rcases Cursor.advance_cases bpf u with ⟨hf, hk, -, hl⟩ | ⟨hl, -, hu⟩ | ⟨hl, hk, hu⟩
  · rw [hf, hk, hl, Nat.add_assoc]
  · simp only [hu, hl, slotNumber]
    omega
  · simp only [hu, hl, slotNumber, Nat.add_mul]
    omega

/-! ## Replacing the selected engine by one with the same cursor (60 R105) -/

theorem firstActive_set {b : Bound} {es : List Engine} {c₀ c : Nat} {e e' : Engine} (h : firstActive b c₀ es = some (c, e))
    (he : e'.complete b = false) : firstActive b c₀ (es.set (c - c₀) e') = some (c, e') := by
  induction es generalizing c₀ with
  | nil => cases h
  | cons x xs ih =>
    unfold firstActive at h
    by_cases hx : x.complete b = true
    · rw [if_pos hx] at h
      have hlt := (firstActive_some h).1
      rw [show c - c₀ = (c - (c₀ + 1)) + 1 by omega, List.set_cons_succ, firstActive, if_pos hx]
      exact ih h
    · rw [if_neg hx] at h
      cases h
      simp [firstActive, he]

theorem scheduledEngine_set {b : Bound} {es : List Engine} {ts : List Nat} {c : Nat} {e e' : Engine}
    (h : scheduledEngine b es ts = some (c, e)) (he : e'.complete b = false) :
    scheduledEngine b (es.set c e') ts = some (c, e') := by
  obtain ⟨hc, -⟩ := scheduledEngine_some h
  cases ts with
  | nil => cases h
  | cons n ts =>
    have hn : n = c := by
      simp only [scheduledEngine] at h
      split at h
      · cases h
      · split at h
        · cases h
        · simp only [Option.some.injEq, Prod.mk.injEq] at h
          exact h.1
    subst hn
    simp [scheduledEngine, getElem?_set_of_some hc, he]

/-- A turn that names no engine able to move names none after a replacement that keeps the engine incomplete. -/
theorem scheduledEngine_set_none {b : Bound} {es : List Engine} {ts : List Nat} {c : Nat} {e : Engine} (e' : Engine)
    (h : scheduledEngine b es ts = none) (hc : es[c]? = some e) (he : e.complete b = false) :
    scheduledEngine b (es.set c e') ts = none := by
  cases ts with
  | nil => rfl
  | cons n ts =>
    by_cases hn : c = n
    · subst hn
      simp [scheduledEngine, hc, he] at h
    · simpa only [scheduledEngine, List.getElem?_set_ne hn] using h

theorem State.selectedIn_setEngine {s : State} {b : Bound} {c : Nat} {e e' : Engine} (h : s.selectedIn b = some (c, e))
    (hcur : e'.cur = e.cur) : (s.setEngine c e').selectedIn b = some (c, e') := by
  obtain ⟨hc, he⟩ := State.selectedIn_some h
  have he' : e'.complete b = false := by rw [Engine.complete, hcur]; exact he
  unfold State.selectedIn at h ⊢
  rw [State.setEngine_engines, State.setEngine_turns]
  cases hsch : scheduledEngine b s.engines s.turns with
  | some p =>
    simp only [hsch, Option.some.injEq] at h
    rw [h] at hsch
    rw [scheduledEngine_set hsch he']
  | none =>
    simp only [hsch] at h
    rw [scheduledEngine_set_none e' hsch hc he]
    exact firstActive_set h he'

/-! ## The invariant of an engine -/

theorem ChannelState.fresh_inRange (m : Mode) : ChannelState.fresh.InRange m := by
  refine ⟨by decide, by decide, by decide, ?_⟩
  cases m with
  | narrow => exact ⟨rfl, rfl, rfl, by decide, by decide⟩
  | wide => exact ⟨by decide, by decide, by decide, by decide, by decide, by decide⟩

theorem bytesPerFrame_pos (m : Mode) : 0 < bytesPerFrame m := by cases m <;> decide

theorem Engine.fresh_inv {b : Bound} (h : b.Inv) (c : Nat) : Engine.fresh.Inv b c where
  range := ChannelState.fresh_inRange b.mode
  frame := h.frames
  byte := bytesPerFrame_pos b.mode
  atEnd := fun _ => ⟨rfl, rfl⟩
  latched := fun hl => absurd rfl hl
  length := by simp [Engine.fresh, Cursor.position, slotNumber]

/-- Latching a byte at slot 0 keeps the invariant: it says of the latch only what holds after slot 0 (10 R30). -/
theorem Engine.Inv.latch_at_slot0 {b : Bound} {c : Nat} {e : Engine} (h : e.Inv b c) (hl : e.cur.l = .s0) (x : Option Byte) :
    Engine.Inv b c { e with latch := x } :=
  ⟨h.range, h.frame, h.byte, h.atEnd, fun hne => absurd hl hne, h.length⟩

/-- A slot operation of an engine that is not complete, whose latch holds the byte at its cursor, keeps the engine's invariant. -/
theorem Engine.Inv.of_moved {b : Bound} {c : Nat} {e e' : Engine} (h : e.Inv b c) (hactive : e.complete b = false)
    (hlatch : e.latch = some (Memory.read b.buf (addr b c e.cur.f e.cur.k).toNat))
    (hmoved : e.Moved b.mode (bytesPerFrame b.mode) 1 e') (hrange : e'.cs.InRange b.mode) : e'.Inv b c := by
  have hf : (e.cur.f : Int) < b.frameCount := by simpa [Engine.complete] using hactive
  have hk := h.byte
  have hpos := bytesPerFrame_pos b.mode
  have hcur : e'.cur = e.cur.advance (bytesPerFrame b.mode) := hmoved.cur
  obtain ⟨samples, hsamples, hout⟩ := hmoved.out
  have hlength : e'.out.length = samplesPerSlot b.mode * e'.cur.position (bytesPerFrame b.mode) := by
    rw [hout, List.length_append, h.length, hsamples, hcur, Cursor.position_advance, Nat.mul_add]
  rcases Cursor.advance_cases (bytesPerFrame b.mode) e.cur with ⟨hf', hk', hl', -⟩ | ⟨-, hne, hu⟩ | ⟨-, -, hu⟩
  · rw [← hcur] at hf' hk' hl'
    refine ⟨hrange, by omega, by omega, fun _ => by omega, fun _ => ?_, hlength⟩
    rw [hmoved.latch, hlatch, hf', hk']
  · have hf' : e'.cur.f = e.cur.f := by rw [hcur, hu]
    have hk' : e'.cur.k = e.cur.k + 1 := by rw [hcur, hu]
    have hl' : e'.cur.l = .s0 := by rw [hcur, hu]
    exact ⟨hrange, by omega, by omega, fun _ => by omega, fun hl => absurd hl' hl, hlength⟩
  · have hf' : e'.cur.f = e.cur.f + 1 := by rw [hcur, hu]
    have hk' : e'.cur.k = 0 := by rw [hcur, hu]
    have hl' : e'.cur.l = .s0 := by rw [hcur, hu]
    exact ⟨hrange, by omega, by omega, fun _ => ⟨hk', hl'⟩, fun hl => absurd hl' hl, hlength⟩

/-! ## The invariant of the machine -/

theorem State.inv_busy {s : State} {b : Bound} (hs : s.status = .busy) (hb : s.cmd = some b) : s.Inv ↔ s.BusyInv b := by
  simp only [State.Inv, hs, hb]

theorem State.powerOn_inv (rom : Tables) : (State.powerOn rom).Inv := ⟨rfl, rfl, rfl⟩

theorem State.raise_inv (s : State) (er : Error) : (s.raise er).Inv := ⟨rfl, er, rfl, rfl⟩

theorem State.finish_inv (s : State) : s.finish.Inv := ⟨rfl, rfl, _, rfl⟩

theorem Error.errCode_code_ne_zero (er : Error) : er.errCode.code ≠ 0 := by
  cases er <;> simp [Error.errCode, ErrCode.code]

/-- Replacing one engine by one that meets its invariant keeps the invariant of a running command. -/
theorem State.BusyInv.setEngine {s : State} {b : Bound} {c : Nat} {e' : Engine} (h : s.BusyInv b) (he : e'.Inv b c) :
    (s.setEngine c e').BusyInv b where
  code := h.code
  pending := h.pending
  bound := h.bound
  count := by rw [State.setEngine_engines, List.length_set]; exact h.count
  engine := by
    intro n x hx
    rw [State.setEngine_engines] at hx
    by_cases hn : c = n
    · subst hn
      have hlt : c < s.engines.length := by simpa using (List.getElem?_eq_some_iff.1 hx).1
      rw [List.getElem?_set_self hlt] at hx
      cases hx
      exact he
    · rw [List.getElem?_set_ne hn] at hx
      exact h.engine n x hx

theorem State.BusyInv.commit {s : State} {b : Bound} {c : Nat} {e' : Engine} (h : s.BusyInv b) (he : e'.Inv b c) :
    (s.commit c e').BusyInv b := by
  obtain ⟨hcode, hpending, hbound, hcount, hengine⟩ := h.setEngine he
  exact ⟨hcode, hpending, hbound, hcount, hengine⟩

/-- The checks pass exactly on legal counts with a buffer long enough (42 R76, R77). -/
theorem checkCommand_none_iff {b : Bound} :
    checkCommand b = none ↔ 1 ≤ b.channelCount ∧ 0 ≤ b.frameCount ∧ b.required ≤ b.bufLen := by
  unfold checkCommand
  split
  · simp only [reduceCtorEq, false_iff]
    omega
  · split
    · simp only [reduceCtorEq, false_iff]
      omega
    · simp only [true_iff]
      omega

theorem latchCommand_inv {cmd : Command} (h : checkCommand (latchCommand cmd) = none) : (latchCommand cmd).Inv := by
  obtain ⟨hchannels, hframes, henough⟩ := checkCommand_none_iff.1 h
  exact ⟨hchannels, hframes, henough, Memory.ofBytes_wf cmd.buffer, Memory.ofBytes_inside cmd.buffer⟩

/-- Accepting a command gives a state of the invariant, whatever the state before (42 R79; 60 R98). -/
theorem State.accept_inv (s : State) (cmd : Command) : (s.accept cmd).Inv := by
  cases hcheck : checkCommand (latchCommand cmd) with
  | some er =>
    rw [State.accept_of_error s hcheck]
    exact State.raise_inv s er
  | none =>
    have hbound := latchCommand_inv hcheck
    rw [State.accept_of_ok s hcheck, State.inv_busy rfl rfl]
    refine ⟨rfl, rfl, hbound, ?_, fun c e he => ?_⟩
    · have hchannels : 1 ≤ cmd.channelCount := hbound.channels
      rw [List.length_replicate]
      exact Int.toNat_of_nonneg (by omega)
    · rw [List.eq_of_mem_replicate (List.mem_of_getElem? he)]
      exact Engine.fresh_inv hbound c

theorem State.acceptNext_inv {s : State} (h : s.Inv) : s.acceptNext.Inv := by
  unfold State.acceptNext
  split
  · exact h
  · exact State.accept_inv _ _

/-- After a fetch that gives a byte the command's invariant still holds, and the engine selected, at the cursor of before,
has the byte at its cursor in its latch (42 R82). -/
theorem State.BusyInv.of_fetch {s s' : State} {b : Bound} {c : Nat} {e : Engine} {v : Byte} (h : s.BusyInv b)
    (hsel : s.selectedIn b = some (c, e)) (hfetch : s.fetch b c e = .latched v s') :
    s'.BusyInv b ∧ ∃ e₁, s'.selectedIn b = some (c, e₁) ∧
      e₁.latch = some (Memory.read b.buf (addr b c e₁.cur.f e₁.cur.k).toNat) := by
  have he : e.Inv b c := h.engine c e (State.selectedIn_some hsel).1
  rcases State.fetch_cases s b c e with ⟨hl, -, hf⟩ | ⟨-, -, hf⟩ | ⟨-, -, hf⟩ | ⟨w, hl, -, hf⟩ <;> cases hf.symm.trans hfetch
  · exact ⟨h.setEngine (he.latch_at_slot0 hl _), _, State.selectedIn_setEngine hsel rfl, rfl⟩
  · exact ⟨h, e, hsel, he.latched hl⟩

theorem State.fetch_latched_frame {s s' : State} {b : Bound} {c : Nat} {e : Engine} {v : Byte}
    (h : s.fetch b c e = .latched v s') : s'.rom = s.rom ∧ s'.status = s.status ∧ s'.cmd = s.cmd := by
  rcases State.fetch_cases s b c e with ⟨-, -, hf⟩ | ⟨-, -, hf⟩ | ⟨-, -, hf⟩ | ⟨w, -, -, hf⟩ <;> cases hf.symm.trans h <;>
    exact ⟨rfl, rfl, rfl⟩

/-- A variant of the bound mode, run on a selected engine whose latch holds the byte at its cursor, keeps the invariant of the command. -/
theorem State.BusyInv.of_exec {s t : State} {b : Bound} {c : Nat} {e : Engine} {l : Slot} {v : Byte} (h : s.BusyInv b)
    (hrom : s.rom.conforms = true) (hb : s.cmd = some b) (hsel : s.selectedIn b = some (c, e))
    (hlatch : e.latch = some (Memory.read b.buf (addr b c e.cur.f e.cur.k).toNat))
    (hexec : exec (decodeVariant ⟨b.mode, l⟩ v) s = .next t) : t.BusyInv b ∧ t.status = s.status ∧ t.cmd = some b := by
  obtain ⟨hc, hactive⟩ := State.selectedIn_some hsel
  have he : e.Inv b c := h.engine c e hc
  obtain ⟨e', hop, hrange⟩ := byteSlotOp_keeps_inRange hrom l v b he.range
  rw [exec_decodeVariant, runOnSelected_next hb ((State.selected_eq hb).trans hsel) hop] at hexec
  cases hexec
  exact ⟨h.commit (he.of_moved hactive hlatch (byteSlotOp_moved hop) hrange), rfl, hb⟩

/-! ## A running command's step that does not answer a next state -/

theorem runCommand_of_stopped {s : State} {b : Bound} {c : Nat} {e : Engine} {f : Fault} (hb : s.cmd = some b)
    (hsel : s.selected = some (c, e)) (hf : s.fetch b c e = .stopped f) : runCommand s = .fault f := by
  rw [State.selected_eq hb] at hsel
  simp only [runCommand, hb, hsel, hf]

theorem State.fetch_of_latch_none {s : State} {b : Bound} {c : Nat} {e : Engine} (hl : e.cur.l ≠ .s0) (h : e.latch = none) :
    s.fetch b c e = .stopped .latchEmpty := by
  rcases State.fetch_cases s b c e with ⟨hl', -, -⟩ | ⟨hl', -, -⟩ | ⟨-, -, hf⟩ | ⟨v, -, hv, -⟩
  · exact absurd hl' hl
  · exact absurd hl' hl
  · exact hf
  · cases h.symm.trans hv

theorem runCommand_not_refused (s : State) (r : Refusal) : runCommand s ≠ .refused r := by
  unfold runCommand
  split
  · nofun
  · split
    · nofun
    · split
      · nofun
      · nofun
      · exact exec_not_refused _ _ r

theorem step_refused_iff {s : State} : step s = .refused .tablesNotConforming ↔ s.rom.conforms = false := by
  refine ⟨fun h => ?_, step_of_not_conforms⟩
  by_contra hc
  rw [Bool.not_eq_false] at hc
  by_cases hs : s.status = .busy
  · exact runCommand_not_refused s _ ((step_of_busy hc hs).symm.trans h)
  · cases (step_of_not_busy hc hs).symm.trans h

/-! ## The obligations -/

/-- Settles O42: a step accepts a command, ends one, or runs the variant of the byte that the fetch left in the latch. -/
theorem everyStepKeepsTheInvariant : Obligations.EveryStepKeepsTheInvariant := by
  intro s t hinv hstep
  obtain ⟨hrom, ⟨-, rfl⟩ | ⟨b, -, -, -, rfl⟩ | ⟨b, c, e, er, -, -, -, -, rfl⟩ | ⟨b, c, e, v, s', hs, hb, hsel, hfetch, hexec⟩⟩ :=
    step_cases hstep
  · exact State.acceptNext_inv hinv
  · exact State.finish_inv s
  · exact State.raise_inv s er
  · have hbusy : s.BusyInv b := (State.inv_busy hs hb).1 hinv
    obtain ⟨hrom', hs', hb'⟩ := State.fetch_latched_frame hfetch
    obtain ⟨hbusy', e₁, hsel', hlatch⟩ := hbusy.of_fetch hsel hfetch
    obtain ⟨ht, hst, hbt⟩ := hbusy'.of_exec (by rw [hrom', hrom]) (hb'.trans hb) hsel' hlatch hexec
    exact (State.inv_busy (hst.trans (hs'.trans hs)) hbt).2 ht

/-- Settles O16: both families of a conforming ROM have conforming deltas. -/
theorem slotOperationsKeepRegisterRanges : Obligations.SlotOperationsKeepRegisterRanges := fun _ b _ _ hrom hr =>
  ⟨fun v => slotOp_keeps_inRange (Tables.conforms_wideDeltas hrom) b v hr,
   fun v => slotOp_keeps_inRange (Tables.conforms_narrowDeltas hrom) b v hr⟩

/-- Settles O23: a next state is the commit of the selected engine, moved by one or three slot operations. -/
theorem instructionsChangeOnlyTheirEngine : Obligations.InstructionsChangeOnlyTheirEngine := by
  intro i s t h
  obtain ⟨b, c, e, e', n, hb, hsel, hmoved, rfl⟩ := exec_next_inv h
  have hc := State.selected_engine hsel
  obtain ⟨samples, -, hout⟩ := hmoved.out
  refine ⟨b, c, e, e', hb, hsel, hc, getElem?_set_of_some hc e', fun c' hne => List.getElem?_set_ne hne.symm, List.length_set,
    hmoved.latch, ⟨samples, hout⟩, hmoved.narrow, rfl, rfl, rfl, rfl, rfl, rfl, rfl, fun b' hb' a => ?_⟩
  cases hb.symm.trans hb'
  rfl

/-- Settles O33: the constraints hold entry by entry, and no other path of a step is refused. -/
theorem nonConformingTablesAreRefused : Obligations.NonConformingTablesAreRefused := by
  intro s
  refine ⟨?_, step_refused_iff⟩
  rw [Tables.conforms_iff, Family.stepsOk_iff, Family.stepsOk_iff, Family.deltasOk_iff, Family.deltasOk_iff]
  constructor
  · rintro ⟨hw, hn, hwd, hnd, hknown⟩
    exact ⟨fun r j hr hj => ⟨hw r j hr hj, (Word.toInt_range _).2⟩, fun r j hr hj => ⟨hn r j hr hj, (Word.toInt_range _).2⟩,
      fun v hv => ⟨(Word.toInt_range _).1, hwd v hv⟩, fun v hv => ⟨(Word.toInt_range _).1, hnd v hv⟩, hknown⟩
  · rintro ⟨hw, hn, hwd, hnd, hknown⟩
    exact ⟨fun r j hr hj => (hw r j hr hj).1, fun r j hr hj => (hn r j hr hj).1, fun v hv => (hwd v hv).2,
      fun v hv => (hnd v hv).2, hknown⟩

/-- Settles O24: every instruction runs on the selected engine of the bound command. -/
theorem instructionsFaultOnAbsentState : Obligations.InstructionsFaultOnAbsentState := by
  intro i s
  obtain ⟨op, hx⟩ := exec_runs i s
  rw [hx]
  exact ⟨runOnSelected_noCommand, fun _ => runOnSelected_noEngine⟩

/-- Settles O32: the fetch stops at an empty latch. -/
theorem emptyLatchFaults : Obligations.EmptyLatchFaults := fun _ _ _ _ hrom hs hb hsel hl hlatch =>
  (step_of_busy hrom hs).trans (runCommand_of_stopped hb hsel (State.fetch_of_latch_none hl hlatch))

/-- Settles O41: at IDLE nothing command-scoped exists and ERR_CODE is 0. -/
theorem powerOnSatisfiesTheInvariant : Obligations.PowerOnSatisfiesTheInvariant := State.powerOn_inv

/-- Settles O44: by what the invariant says at each STATUS. -/
theorem errorCodeIsZeroOutsideError : Obligations.ErrorCodeIsZeroOutsideError := by
  intro s hinv
  unfold State.Inv at hinv
  split at hinv
  next b hs hb => simp [hs, hinv.code, Status.code, ErrCode.code]
  next hs hb => simp [hs, hinv.1, Status.code, ErrCode.code]
  next hs hb => simp [hs, hinv.1, Status.code, ErrCode.code]
  next hs hb =>
    obtain ⟨-, er, -, hcode⟩ := hinv
    simp [hs, hcode, Status.code, Error.errCode_code_ne_zero]
  next => exact hinv.elim

end Sys2Proof.Machine

/-! Reads of the host's buffer, and the run of a whole command: engines that move one at a time along the loop nest
(20 R37, R43; 42 R80, R82, R91). -/

namespace Sys2Proof.Machine

/-! ## The buffer and its addresses (42 R81) -/

/-- The bound buffer reads as the host's bytes inside its length (10 R16). -/
theorem memRead_latchCommand (cmd : Command) {n : Nat} (h : n < cmd.buffer.length) :
    memRead (latchCommand cmd) n = .ok cmd.buffer[n] := by
  rw [memRead_inside ⟨Int.natCast_nonneg n, Int.ofNat_lt.2 h⟩, latchCommand, Int.toNat_natCast, Memory.read_ofBytes,
    List.getD_eq_getElem _ _ h]

theorem laneStride_eq_bytesPerFrame (m : Mode) : laneStride m = bytesPerFrame m := by cases m <;> rfl

/-- The addresses of a command lie below its required length, for every lane stride up to the frame's size (60 R100). -/
theorem addrWith_inside {L bpf C F c f k : Int} (hL : 1 ≤ L) (hbpf : L ≤ bpf) (hc : 0 ≤ c) (hcC : c < C) (hf : 0 ≤ f) (hfF : f < F)
    (hk : 0 ≤ k) (hkb : k < bpf) : 0 ≤ addrWith L C c f k ∧ addrWith L C c f k < C * F * bpf := by
  have hC : 0 ≤ C := by omega
  have hfC : 0 ≤ f * C := Int.mul_nonneg hf hC
  refine ⟨by unfold addrWith; positivity, ?_⟩
  calc c * L + f * C * L + k
    _ ≤ c * bpf + f * C * bpf + k := by gcongr
    _ < (c + 1) * bpf + f * C * bpf := by rw [Int.add_mul]; omega
    _ ≤ C * bpf + f * C * bpf := by gcongr <;> omega
    _ = C * (f + 1) * bpf := by ring
    _ ≤ C * F * bpf := by gcongr <;> omega

/-- With the spec's lane stride byte k of frame f of channel c lies below the required length (20 R43). -/
theorem addrWith_laneStride_inside {m : Mode} {C F : Int} {c f k : Nat} (hc : (c : Int) < C) (hf : (f : Int) < F)
    (hk : k < bytesPerFrame m) :
    0 ≤ addrWith (laneStride m) C c f k ∧ addrWith (laneStride m) C c f k < C * F * bytesPerFrame m := by
  have hpos := bytesPerFrame_pos m
  rw [laneStride_eq_bytesPerFrame]
  exact addrWith_inside (by omega) le_rfl (Int.natCast_nonneg c) hc (Int.natCast_nonneg f) hf (Int.natCast_nonneg k) (Int.ofNat_lt.2 hk)

/-- Byte k of frame f of channel ch in the host's buffer (42 R81). -/
def Command.byteAt (cmd : Command) (ch f k : Nat) : Byte :=
  cmd.buffer.getD (addrWith (laneStride cmd.mode) cmd.channelCount ch f k).toNat 0

theorem read_latchCommand_addr (cmd : Command) (ch f k : Nat) :
    Memory.read (latchCommand cmd).buf (addr (latchCommand cmd) ch f k).toNat = cmd.byteAt ch f k :=
  Memory.read_ofBytes cmd.buffer _

/-! ## A step leaves the ROM and the bound command (20 R38, R48) -/

theorem State.accept_rom (s : State) (cmd : Command) : (s.accept cmd).rom = s.rom := by
  cases h : checkCommand (latchCommand cmd) with
  | some er => rw [State.accept_of_error s h]
  | none => rw [State.accept_of_ok s h]

theorem State.acceptNext_rom (s : State) : s.acceptNext.rom = s.rom := by
  unfold State.acceptNext
  split
  · rfl
  · exact State.accept_rom _ _

theorem exec_next_frame {i : Instr} {s t : State} (h : exec i s = .next t) : t.rom = s.rom ∧ t.cmd = s.cmd := by
  obtain ⟨b, c, e, e', n, -, -, -, rfl⟩ := exec_next_inv h
  exact ⟨rfl, rfl⟩

/-! ## What a running command's step does, by its selection and its fetch -/

theorem runCommand_of_complete {s : State} {b : Bound} (hb : s.cmd = some b) (hsel : s.selectedIn b = none) :
    runCommand s = .next s.finish := by
  simp only [runCommand, hb, hsel]

theorem runCommand_of_raised {s : State} {b : Bound} {c : Nat} {e : Engine} {er : Error} (hb : s.cmd = some b)
    (hsel : s.selectedIn b = some (c, e)) (hf : s.fetch b c e = .raised er) : runCommand s = .next (s.raise er) := by
  simp only [runCommand, hb, hsel, hf]

theorem runCommand_of_latched {s s' : State} {b : Bound} {c : Nat} {e : Engine} {v : Byte} (hb : s.cmd = some b)
    (hsel : s.selectedIn b = some (c, e)) (hf : s.fetch b c e = .latched v s') :
    runCommand s = exec (decodeVariant ⟨b.mode, e.cur.l⟩ v) s' := by
  simp only [runCommand, hb, hsel, hf]

theorem State.fetch_of_outside {s : State} {b : Bound} {c : Nat} {e : Engine} (hl : e.cur.l = .s0)
    (h : ¬ (0 ≤ addr b c e.cur.f e.cur.k ∧ addr b c e.cur.f e.cur.k < b.bufLen)) :
    s.fetch b c e = .raised (.offsetOutOfRange (addr b c e.cur.f e.cur.k)) := by
  simp only [State.fetch, hl, memRead_outside h]

/-! ## One move of an engine (42 R80, R82, R83) -/

/-- The engine with the byte at its cursor in its latch, as its fetch leaves it (42 R82). -/
def Engine.latched (b : Bound) (c : Nat) (e : Engine) : Engine :=
  { e with latch := some (Memory.read b.buf (addr b c e.cur.f e.cur.k).toNat) }

/-- One move of channel c's engine: the slot operation at its cursor on the byte at its cursor. It reads nothing of the
other engines and nothing of the schedule (60 R105). -/
def Engine.move (rom : Tables) (b : Bound) (c : Nat) (e : Engine) : Except Fault Engine :=
  byteSlotOp rom b.mode e.cur.l (Memory.read b.buf (addr b c e.cur.f e.cur.k).toNat) b (e.latched b c)

theorem Engine.Inv.latched_self {b : Bound} {c : Nat} {e : Engine} (h : e.Inv b c) (hl : e.cur.l ≠ .s0) : e.latched b c = e := by
  rw [Engine.latched, ← h.latched hl]

theorem Engine.Inv.cursor_lt {b : Bound} {c : Nat} {e : Engine} (h : e.Inv b c) (hactive : e.complete b = false) :
    (e.cur.f : Int) < b.frameCount ∧ e.cur.k < bytesPerFrame b.mode :=
  ⟨by simpa [Engine.complete] using hactive, h.byte⟩

/-- The engine of a channel of a command that passed its checks reads inside the buffer (60 R100). -/
theorem Engine.Inv.addr_inside {b : Bound} {c : Nat} {e : Engine} (h : e.Inv b c) (hb : b.Inv) (hc : (c : Int) < b.channelCount)
    (hactive : e.complete b = false) : 0 ≤ addr b c e.cur.f e.cur.k ∧ addr b c e.cur.f e.cur.k < b.bufLen := by
  obtain ⟨hf, hk⟩ := h.cursor_lt hactive
  obtain ⟨hlow, hhigh⟩ := addrWith_laneStride_inside hc hf hk
  exact ⟨hlow, lt_of_lt_of_le hhigh hb.enough⟩

/-- Latching the byte at the cursor keeps the invariant of the engine, at every slot. -/
theorem Engine.Inv.of_latched {b : Bound} {c : Nat} {e : Engine} (h : e.Inv b c) : (e.latched b c).Inv b c := by
  by_cases hl : e.cur.l = .s0
  · exact h.latch_at_slot0 hl _
  · rwa [h.latched_self hl]

theorem Engine.Inv.exists_move {rom : Tables} {b : Bound} {c : Nat} {e : Engine} (h : e.Inv b c) (hrom : rom.conforms = true) :
    ∃ e', e.move rom b c = .ok e' := by
  obtain ⟨e', hop, -⟩ := byteSlotOp_keeps_inRange hrom e.cur.l (Memory.read b.buf (addr b c e.cur.f e.cur.k).toNat) b h.of_latched.range
  exact ⟨e', hop⟩

theorem Engine.move_cur {rom : Tables} {b : Bound} {c : Nat} {e e' : Engine} (h : e.move rom b c = .ok e') :
    e'.cur = e.cur.advance (bytesPerFrame b.mode) :=
  (byteSlotOp_moved h).cur

/-- The fetch of the selected engine always gives the byte at its cursor, and leaves that engine latched and nothing else changed. -/
theorem State.BusyInv.fetch_latched {s : State} {b : Bound} {c : Nat} {e : Engine} (h : s.BusyInv b)
    (hsel : s.selectedIn b = some (c, e)) :
    s.fetch b c e = .latched (Memory.read b.buf (addr b c e.cur.f e.cur.k).toNat) (s.setEngine c (e.latched b c)) := by
  obtain ⟨hc, hactive⟩ := State.selectedIn_some hsel
  have he : e.Inv b c := h.engine c e hc
  have hlt : (c : Int) < b.channelCount := h.count ▸ Int.ofNat_lt.2 (List.getElem?_eq_some_iff.1 hc).1
  rcases State.fetch_cases s b c e with ⟨-, -, hf⟩ | ⟨-, hout, -⟩ | ⟨hl, hnone, -⟩ | ⟨v, hl, hv, hf⟩
  · exact hf
  · exact absurd (he.addr_inside h.bound hlt hactive) hout
  · cases hnone.symm.trans (he.latched hl)
  · cases hv.symm.trans (he.latched hl)
    rw [he.latched_self hl, State.setEngine_self hc, hf]

/-- A step of a running command is one move of the selected engine. -/
theorem State.BusyInv.step_moves {s : State} {b : Bound} {c : Nat} {e : Engine} (h : s.BusyInv b) (hrom : s.rom.conforms = true)
    (hs : s.status = .busy) (hb : s.cmd = some b) (hsel : s.selectedIn b = some (c, e)) :
    ∃ e', e.move s.rom b c = .ok e' ∧ step s = .next (s.commit c e') := by
  obtain ⟨e', hmove⟩ := (h.engine c e (State.selectedIn_some hsel).1).exists_move hrom
  have hsel' : (s.setEngine c (e.latched b c)).selected = some (c, e.latched b c) :=
    (State.selected_eq (s := s.setEngine c _) hb).trans (State.selectedIn_setEngine hsel rfl)
  refine ⟨e', hmove, ?_⟩
  rw [step_of_busy hrom hs, runCommand_of_latched hb hsel (h.fetch_latched hsel), exec_decodeVariant,
    State.setEngine_rom, runOnSelected_next (s := s.setEngine c _) hb hsel' hmove]
  simp only [State.commit, State.setEngine, List.set_set]

/-! ## How many moves are left (42 R80) -/

/-- An engine that is not complete stands before its channel's last slot operation. -/
theorem Engine.Inv.position_lt {b : Bound} {c : Nat} {e : Engine} (h : e.Inv b c) (hactive : e.complete b = false) :
    e.cur.position (bytesPerFrame b.mode) < slotsPerChannel b.mode b.frameCount := by
  obtain ⟨hf, hk⟩ := h.cursor_lt hactive
  have hl : slotNumber e.cur.l ≤ 2 := by cases e.cur.l <;> decide
  have hframes : (e.cur.f + 1) * bytesPerFrame b.mode ≤ b.frameCount.toNat * bytesPerFrame b.mode :=
    Nat.mul_le_mul_right _ (by omega)
  rw [Nat.add_mul] at hframes
  unfold Cursor.position slotsPerChannel
  omega

/-- A complete engine has performed all its channel's slot operations. -/
theorem Engine.Inv.position_of_complete {b : Bound} {c : Nat} {e : Engine} (h : e.Inv b c) (hdone : e.complete b = true) :
    e.cur.position (bytesPerFrame b.mode) = slotsPerChannel b.mode b.frameCount := by
  have hge : b.frameCount ≤ e.cur.f := by simpa [Engine.complete] using hdone
  have hf : (e.cur.f : Int) = b.frameCount := le_antisymm h.frame hge
  obtain ⟨hk, hl⟩ := h.atEnd hf
  rw [Cursor.position, slotsPerChannel, ← hf, hk, hl, Int.toNat_natCast, slotNumber, Nat.add_zero, Nat.add_zero, Nat.mul_comm]

theorem Engine.fresh_position (bpf : Nat) : Engine.fresh.cur.position bpf = 0 := by
  simp [Engine.fresh, Cursor.position, slotNumber]

/-- The slot operations that an engine has still to perform. -/
def Engine.movesLeft (b : Bound) (e : Engine) : Nat :=
  slotsPerChannel b.mode b.frameCount - e.cur.position (bytesPerFrame b.mode)

/-- The slot operations that a command's engines have still to perform. -/
def movesLeft (b : Bound) (es : List Engine) : Nat := (es.map (Engine.movesLeft b)).sum

theorem movesLeft_set {b : Bound} {es : List Engine} {c : Nat} {e e' : Engine} (h : es[c]? = some e)
    (he : e.movesLeft b = e'.movesLeft b + 1) : movesLeft b es = movesLeft b (es.set c e') + 1 := by
  induction es generalizing c with
  | nil => cases h
  | cons x xs ih =>
    cases c with
    | zero =>
      cases h
      simp only [movesLeft, List.set_cons_zero, List.map_cons, List.sum_cons, he]
      omega
    | succ c =>
      have hxs := ih (List.getElem?_cons_succ.symm.trans h)
      simp only [movesLeft, List.set_cons_succ, List.map_cons, List.sum_cons] at hxs ⊢
      omega

theorem movesLeft_of_complete {b : Bound} {es : List Engine} (hinv : ∀ (c : Nat) (e : Engine), es[c]? = some e → e.Inv b c)
    (hdone : ∀ e ∈ es, e.complete b = true) : movesLeft b es = 0 := by
  simp only [movesLeft, List.sum_eq_zero_iff, List.forall_mem_map]
  intro e he
  obtain ⟨c, hc⟩ := List.getElem?_of_mem he
  rw [Engine.movesLeft, (hinv c e hc).position_of_complete (hdone e he), Nat.sub_self]

theorem Engine.Inv.movesLeft_move {rom : Tables} {b : Bound} {c : Nat} {e e' : Engine} (h : e.Inv b c) (hactive : e.complete b = false)
    (hmove : e.move rom b c = .ok e') : e.movesLeft b = e'.movesLeft b + 1 := by
  have hlt := h.position_lt hactive
  rw [Engine.movesLeft, Engine.movesLeft, Engine.move_cur hmove, Cursor.position_advance]
  omega

/-! ## Running a command to its end (42 R91) -/

theorem State.after_zero (s : State) : s.after 0 = some s := rfl

theorem State.after_succ_of_next {s t : State} (h : step s = .next t) (n : Nat) : s.after (n + 1) = t.after n := by
  unfold State.after
  rw [core_run_succ_of_next h]

/-- The machine while command b runs on a conforming ROM, with a property P of each channel's engine. -/
structure State.Running (rom : Tables) (b : Bound) (P : Nat → Engine → Prop) (s : State) : Prop where
  tables   : s.rom = rom
  conforms : rom.conforms = true
  status   : s.status = .busy
  cmd      : s.cmd = some b
  inv      : s.BusyInv b
  engine   : ∀ (c : Nat) (e : Engine), s.engines[c]? = some e → P c e

/-- The moves of channel c's engine keep property P. -/
def MovesKeep (rom : Tables) (b : Bound) (P : Nat → Engine → Prop) : Prop :=
  ∀ (c : Nat) (e e' : Engine), e.Inv b c → e.complete b = false → P c e → e.move rom b c = .ok e' → P c e'

theorem State.Running.step_next {rom : Tables} {b : Bound} {P : Nat → Engine → Prop} {s : State} {c : Nat} {e : Engine}
    (h : s.Running rom b P) (hP : MovesKeep rom b P) (hsel : s.selectedIn b = some (c, e)) :
    ∃ t, step s = .next t ∧ t.Running rom b P ∧ movesLeft b s.engines = movesLeft b t.engines + 1 := by
  obtain ⟨rfl, hconf, hs, hb, hinv, hengine⟩ := h
  obtain ⟨hc, hactive⟩ := State.selectedIn_some hsel
  have he : e.Inv b c := hinv.engine c e hc
  obtain ⟨e', hmove, hstep⟩ := hinv.step_moves hconf hs hb hsel
  refine ⟨s.commit c e', hstep, ⟨rfl, hconf, hs, hb, ?_, fun n x hx => ?_⟩, movesLeft_set hc (he.movesLeft_move hactive hmove)⟩
  · have hcommit := everyStepKeepsTheInvariant s _ ((State.inv_busy hs hb).2 hinv) hstep
    exact (State.inv_busy (s := s.commit c e') hs hb).1 hcommit
  · rw [State.commit_engines] at hx
    by_cases hn : c = n
    · subst hn
      cases (getElem?_set_of_some hc e').symm.trans hx
      exact hP c e e' he hactive (hengine c e hc) hmove
    · rw [List.getElem?_set_ne hn] at hx
      exact hengine n x hx

/-- A running command ends after the moves left and one step more, with every channel complete, whatever the schedule. -/
theorem State.Running.after_finish {rom : Tables} {b : Bound} {P : Nat → Engine → Prop} (hP : MovesKeep rom b P) {s : State}
    (h : s.Running rom b P) :
    ∃ u : State, u.Running rom b P ∧ (∀ e ∈ u.engines, e.complete b = true) ∧ s.after (movesLeft b s.engines + 1) = some u.finish := by
  generalize hn : movesLeft b s.engines = n
  induction n generalizing s with
  | zero =>
    cases hsel : s.selectedIn b with
    | none =>
      refine ⟨s, h, State.selectedIn_none.1 hsel, ?_⟩
      have hstep : step s = .next s.finish :=
        (step_of_busy (h.tables ▸ h.conforms) h.status).trans (runCommand_of_complete h.cmd hsel)
      rw [State.after_succ_of_next hstep, State.after_zero]
    | some p =>
      obtain ⟨t, -, -, hleft⟩ := h.step_next hP hsel
      omega
  | succ n ih =>
    cases hsel : s.selectedIn b with
    | none =>
      have hzero := movesLeft_of_complete h.inv.engine (State.selectedIn_none.1 hsel)
      omega
    | some p =>
      obtain ⟨t, hstep, ht, hleft⟩ := h.step_next hP hsel
      rw [State.after_succ_of_next hstep]
      exact ih ht (by omega)

/-! ## The loop nest of one channel (42 R80) -/

/-- The operation's number gives the cursor back: its slot, its frame and its byte. -/
theorem Cursor.of_position {bpf : Nat} {u : Cursor} (hk : u.k < bpf) :
    slotOfNumber (u.position bpf % 3) = u.l ∧ u.position bpf / 3 / bpf = u.f ∧ u.position bpf / 3 % bpf = u.k := by
  have hl : slotNumber u.l < 3 := by cases u.l <;> decide
  have hbyte : u.position bpf / 3 = u.k + bpf * u.f := by
    rw [Nat.mul_comm bpf]
    unfold Cursor.position
    omega
  have hslot : u.position bpf % 3 = slotNumber u.l := by
    unfold Cursor.position
    omega
  refine ⟨?_, ?_, ?_⟩
  · rw [hslot]
    cases u.l <;> rfl
  · rw [hbyte, Nat.add_mul_div_left _ _ (by omega), Nat.div_eq_of_lt hk, Nat.zero_add]
  · rw [hbyte, Nat.add_mul_mod_self_left, Nat.mod_eq_of_lt hk]

/-- The slot operation of an engine is the loop nest's, with the samples appended and the cursor advanced. -/
theorem referenceSlot_of_byteSlotOp {rom : Tables} {m : Mode} {l : Slot} {v : Byte} {b : Bound} {e e' : Engine}
    (h : byteSlotOp rom m l v b e = .ok e') :
    ∃ samples, referenceSlot rom m l v e.cs = .ok (e'.cs, samples) ∧ e'.out = e.out ++ samples := by
  cases l <;>
    obtain ⟨p, hd, he⟩ := slotOp_inv h <;>
    obtain ⟨cs, samples, hsyn, rfl⟩ := emit_inv he <;>
    exact ⟨samples, by simp only [referenceSlot, hd, bind, Except.bind, hsyn], rfl⟩

theorem referenceChannel_zero (rom : Tables) (cmd : Command) (ch : Nat) :
    referenceChannel rom cmd ch 0 = .ok (ChannelState.fresh, []) := rfl

theorem referenceChannel_succ_of_ok {rom : Tables} {cmd : Command} {ch n : Nat} {cs cs' : ChannelState} {out samples : List Word}
    (h : referenceChannel rom cmd ch n = .ok (cs, out))
    (hslot : referenceSlot rom cmd.mode (slotOfNumber (n % 3))
      (cmd.byteAt ch (n / 3 / bytesPerFrame cmd.mode) (n / 3 % bytesPerFrame cmd.mode)) cs = .ok (cs', samples)) :
    referenceChannel rom cmd ch (n + 1) = .ok (cs', out ++ samples) := by
  rw [Command.byteAt] at hslot
  simp only [referenceChannel, h, hslot, bind, Except.bind, pure, Except.pure]

/-- The loop nest of a channel reads the bytes of its lane alone: commands of the same mode and frames whose lanes hold
the same bytes decode them alike (42 R93). -/
theorem referenceChannel_congr (rom : Tables) {cmd cmd' : Command} {ch ch' : Nat} (hmode : cmd'.mode = cmd.mode)
    (hbytes : ∀ f k : Nat, (f : Int) < cmd.frameCount → k < bytesPerFrame cmd.mode → cmd'.byteAt ch' f k = cmd.byteAt ch f k)
    {n : Nat} (hn : n ≤ slotsPerChannel cmd.mode cmd.frameCount) :
    referenceChannel rom cmd' ch' n = referenceChannel rom cmd ch n := by
  induction n with
  | zero => rfl
  | succ n ih =>
    have hf : n / 3 / bytesPerFrame cmd.mode < cmd.frameCount.toNat := by
      rw [Nat.div_div_eq_div_mul, Nat.mul_comm 3]
      exact Nat.div_lt_of_lt_mul (by rw [Nat.mul_comm, ← Nat.mul_assoc]; exact hn)
    have hk := Nat.mod_lt (n / 3) (bytesPerFrame_pos cmd.mode)
    have hbyte := hbytes _ _ (Int.lt_toNat.1 hf) hk
    unfold Command.byteAt at hbyte
    rw [hmode] at hbyte
    simp only [referenceChannel, hmode, ih (by omega), hbyte]

/-! ## A whole command runs the loop nest (42 R80, R91) -/

/-- An engine of channel ch stands where the loop nest of its channel stands after as many slot operations. -/
def Engine.AtReference (rom : Tables) (cmd : Command) (ch : Nat) (e : Engine) : Prop :=
  referenceChannel rom cmd ch (e.cur.position (bytesPerFrame cmd.mode)) = .ok (e.cs, e.out)

theorem movesKeep_atReference (rom : Tables) (cmd : Command) :
    MovesKeep rom (latchCommand cmd) (Engine.AtReference rom cmd) := by
  intro ch e e' hinv hactive href hmove
  have hk : e.cur.k < bytesPerFrame cmd.mode := hinv.byte
  obtain ⟨hl, hf, hbyte⟩ := Cursor.of_position hk
  obtain ⟨samples, hslot, hout⟩ := referenceSlot_of_byteSlotOp hmove
  have hcur : e'.cur = e.cur.advance (bytesPerFrame cmd.mode) := Engine.move_cur hmove
  rw [Engine.AtReference, hcur, Cursor.position_advance, hout]
  refine referenceChannel_succ_of_ok href ?_
  rw [hl, hf, hbyte, ← read_latchCommand_addr]
  exact hslot

/-- The outputs of a command by the loop nest: one per channel, in channel order. -/
structure LoopNestOutputs (rom : Tables) (cmd : Command) (outs : List (List Word)) : Prop where
  count   : outs.length = cmd.channelCount.toNat
  channel : ∀ (ch : Nat) (out : List Word), outs[ch]? = some out →
    ∃ cs, referenceChannel rom cmd ch (slotsPerChannel cmd.mode cmd.frameCount) = .ok (cs, out)

theorem LoopNestOutputs.unique {rom : Tables} {cmd : Command} {outs outs' : List (List Word)} (h : LoopNestOutputs rom cmd outs)
    (h' : LoopNestOutputs rom cmd outs') : outs = outs' := by
  refine List.ext_getElem (h.count.trans h'.count.symm) fun ch hch hch' => ?_
  obtain ⟨cs, hcs⟩ := h.channel ch _ (List.getElem?_eq_getElem hch)
  obtain ⟨cs', hcs'⟩ := h'.channel ch _ (List.getElem?_eq_getElem hch')
  exact congrArg Prod.snd (Except.ok.inj (hcs.symm.trans hcs'))

theorem Command.Legal.checkCommand {cmd : Command} (h : cmd.Legal) : checkCommand (latchCommand cmd) = none :=
  checkCommand_none_iff.2 ⟨h.channels, h.frames, h.enough⟩

/-- The acceptance of a legal command starts every channel at the start of its loop nest (42 R79). -/
theorem State.accept_running (s : State) {cmd : Command} (hrom : s.rom.conforms = true) (hlegal : cmd.Legal) :
    (s.accept cmd).Running s.rom (latchCommand cmd) (Engine.AtReference s.rom cmd) := by
  have haccept := State.accept_of_ok s hlegal.checkCommand
  have hs : (s.accept cmd).status = .busy := by rw [haccept]
  have hb : (s.accept cmd).cmd = some (latchCommand cmd) := by rw [haccept]
  refine ⟨State.accept_rom s cmd, hrom, hs, hb, (State.inv_busy hs hb).1 (State.accept_inv s cmd), fun c e he => ?_⟩
  rw [haccept] at he
  rw [List.eq_of_mem_replicate (List.mem_of_getElem? he), Engine.AtReference, Engine.fresh_position]
  exact referenceChannel_zero s.rom cmd c

theorem movesLeft_accept (s : State) {cmd : Command} (hlegal : cmd.Legal) :
    movesLeft (latchCommand cmd) (s.accept cmd).engines = cmd.channelCount.toNat * slotsPerChannel cmd.mode cmd.frameCount := by
  rw [State.accept_of_ok s hlegal.checkCommand, movesLeft, List.map_replicate, List.sum_replicate, Engine.movesLeft, Engine.fresh_position]
  rfl

/-- The first step of an issued command is its acceptance, which takes it off the host's list (log 6). -/
theorem step_issued (s : State) (turns : List Nat) (cmd : Command) (hrom : s.rom.conforms = true) (hs : s.status ≠ .busy) :
    step { s with requests := [cmd], turns := turns } = .next ({ s with requests := [], turns := turns }.accept cmd) :=
  step_of_not_busy hrom hs

/-- A legal command, issued to a machine that is not BUSY, returns the outputs of the loop nest, whatever the schedule. -/
theorem State.decodeFrom_loopNest (s : State) (turns : List Nat) {cmd : Command} (hrom : s.rom.conforms = true)
    (hs : s.status ≠ .busy) (hlegal : cmd.Legal) :
    ∃ outs, s.decodeFrom turns cmd = some (.ok outs) ∧ LoopNestOutputs s.rom cmd outs := by
  have hrunning := State.accept_running { s with requests := [], turns := turns } hrom hlegal
  obtain ⟨u, hu, hdone, hafter⟩ := hrunning.after_finish (movesKeep_atReference s.rom cmd)
  rw [movesLeft_accept _ hlegal] at hafter
  refine ⟨u.engines.map (·.out), ?_, ?_, fun ch out hout => ?_⟩
  · rw [State.decodeFrom, decodeSteps, State.after_succ_of_next (step_issued s turns cmd hrom hs), hafter]
    rfl
  · have hcount : (u.engines.length : Int) = cmd.channelCount := hu.inv.count
    rw [List.length_map]
    omega
  · rw [List.getElem?_map, Option.map_eq_some_iff] at hout
    obtain ⟨e, he, rfl⟩ := hout
    have hend := (hu.inv.engine ch e he).position_of_complete (hdone e (List.mem_of_getElem? he))
    have href : e.AtReference s.rom cmd ch := hu.engine ch e he
    exact ⟨e.cs, hend ▸ href⟩

/-! ## The bytes from the required length on (20 R43) -/

/-- The command with its buffer cut at its required length and continued by another tail. -/
def Command.withTail (cmd : Command) (tail : List Byte) : Command :=
  { cmd with buffer := cmd.buffer.take (cmd.channelCount * cmd.frameCount * bytesPerFrame cmd.mode).toNat ++ tail }

theorem Command.Legal.withTail {cmd : Command} (h : cmd.Legal) (tail : List Byte) : (cmd.withTail tail).Legal := by
  refine ⟨h.channels, h.frames, ?_⟩
  have henough := h.enough
  simp only [Command.withTail, List.length_append, List.length_take]
  omega

/-- Every byte that a channel's loop nest reads lies before the required length. -/
theorem Command.Legal.byteAt_withTail {cmd : Command} (h : cmd.Legal) (tail : List Byte) {ch f k : Nat}
    (hch : (ch : Int) < cmd.channelCount) (hf : (f : Int) < cmd.frameCount) (hk : k < bytesPerFrame cmd.mode) :
    (cmd.withTail tail).byteAt ch f k = cmd.byteAt ch f k := by
  have henough := h.enough
  obtain ⟨hlow, hhigh⟩ := addrWith_laneStride_inside hch hf hk
  simp only [Command.byteAt, Command.withTail]
  rw [List.getD_append _ _ _ _ (by rw [List.length_take]; omega), List.getD_eq_getElem?_getD, List.getElem?_take_of_lt (by omega),
    List.getD_eq_getElem?_getD]

theorem Command.Legal.loopNestOutputs_withTail {rom : Tables} {cmd : Command} {outs : List (List Word)} (h : cmd.Legal)
    {tail : List Byte} (houts : LoopNestOutputs rom (cmd.withTail tail) outs) : LoopNestOutputs rom cmd outs := by
  refine ⟨houts.count, fun ch out hout => ?_⟩
  obtain ⟨cs, href⟩ := houts.channel ch out hout
  have hlt : ch < cmd.channelCount.toNat := houts.count ▸ (List.getElem?_eq_some_iff.1 hout).1
  have hsame : referenceChannel rom (cmd.withTail tail) ch (slotsPerChannel cmd.mode cmd.frameCount) =
      referenceChannel rom cmd ch (slotsPerChannel cmd.mode cmd.frameCount) :=
    referenceChannel_congr rom (cmd := cmd) (cmd' := cmd.withTail tail) rfl
      (fun _ _ hf hk => h.byteAt_withTail tail (Int.lt_toNat.1 hlt) hf hk) le_rfl
  exact ⟨cs, hsame.symm.trans href⟩

/-! ## The obligations -/

/-- Settles O49: the machine returns the outputs of the loop nest, which reads only below the required length. -/
theorem tailBytesDoNotAffectTheResult : Obligations.TailBytesDoNotAffectTheResult := by
  intro s turns turns' cmd tail _ hrom hs hlegal
  obtain ⟨outs, hrun, houts⟩ := s.decodeFrom_loopNest turns hrom hs hlegal
  obtain ⟨outs', hrun', houts'⟩ := s.decodeFrom_loopNest turns' hrom hs (hlegal.withTail tail)
  cases houts.unique (hlegal.loopNestOutputs_withTail houts')
  exact ⟨.ok outs, hrun, hrun'⟩

/-- Settles O26: BUF holds the host's bytes. -/
theorem memReadReturnsTheHostsBytes : Obligations.MemReadReturnsTheHostsBytes := by
  refine fun cmd a => ⟨fun n hn h => hn ▸ memRead_latchCommand cmd h, fun hout => memRead_outside fun ⟨hlow, hhigh⟩ => ?_⟩
  have hlen : (latchCommand cmd).bufLen = cmd.buffer.length := rfl
  omega

/-- Settles O45: a step accepts a command, ends one, or commits an engine. -/
theorem romAndCommandAreConstant : Obligations.RomAndCommandAreConstant := by
  intro s t hstep
  obtain ⟨-, ⟨hs, rfl⟩ | ⟨b, -, -, -, rfl⟩ | ⟨b, c, e, er, -, -, -, -, rfl⟩ | ⟨b, c, e, v, s', -, -, -, hfetch, hexec⟩⟩ :=
    step_cases hstep
  · exact ⟨State.acceptNext_rom s, fun hbusy => absurd hbusy hs⟩
  · exact ⟨rfl, fun _ => .inr ⟨rfl, nofun⟩⟩
  · exact ⟨rfl, fun _ => .inr ⟨rfl, nofun⟩⟩
  · obtain ⟨hrom, -, hcmd⟩ := State.fetch_latched_frame hfetch
    obtain ⟨hrom', hcmd'⟩ := exec_next_frame hexec
    exact ⟨hrom'.trans hrom, fun _ => .inl (hcmd'.trans hcmd)⟩

/-- Settles O31: the step is the abort that the fetch raises. -/
theorem failedFetchAbortsTheCommand : Obligations.FailedFetchAbortsTheCommand := by
  intro s b c e hrom hs hb hsel hl hout
  have hrun := runCommand_of_raised hb ((State.selected_eq hb).symm.trans hsel) (State.fetch_of_outside hl hout)
  exact ⟨_, (step_of_busy hrom hs).trans hrun, rfl, rfl, rfl, rfl, rfl, rfl, rfl⟩

end Sys2Proof.Machine

/-! The decoder and the opcode table: the fields of a coded byte, the rows that a byte matches, and the variants as the
slot operations with their codedValues (30 R49 to R58). -/

namespace Sys2Proof

/-! ## The fields of a coded byte (30 R49, R53, R58) -/

theorem topField_toNat (b : Byte) : (topField b).toNat = b.toNat / 32 := by
  have := b.isLt
  simp only [topField, BitVec.extractLsb'_toNat, Nat.shiftRight_eq_div_pow]
  omega

theorem midField_toNat (b : Byte) : (midField b).toNat = b.toNat / 8 % 4 := by
  simp only [midField, BitVec.extractLsb'_toNat, Nat.shiftRight_eq_div_pow, Nat.reducePow]

theorem lowField_toNat (b : Byte) : (lowField b).toNat = b.toNat % 8 := by
  simp only [lowField, BitVec.extractLsb'_toNat, Nat.shiftRight_zero, Nat.reducePow]

@[simp] theorem topField_assembleByte (top : BitVec 3) (mid : BitVec 2) (low : BitVec 3) :
    topField (assembleByte top mid low) = top := by
  revert top mid low; decide

@[simp] theorem midField_assembleByte (top : BitVec 3) (mid : BitVec 2) (low : BitVec 3) :
    midField (assembleByte top mid low) = mid := by
  revert top mid low; decide

@[simp] theorem lowField_assembleByte (top : BitVec 3) (mid : BitVec 2) (low : BitVec 3) :
    lowField (assembleByte top mid low) = low := by
  revert top mid low; decide

/-- The mask 0xE0 of the opcode table cuts TOP out of a byte; the masks below cut out MID, LOW and all three fields. -/
theorem and_topMask (b : Byte) : b &&& 0xE0 = assembleByte (topField b) 0 0 := by
  revert b; decide

theorem and_midMask (b : Byte) : b &&& 0x18 = assembleByte 0 (midField b) 0 := by
  revert b; decide

theorem and_lowMask (b : Byte) : b &&& 0x07 = assembleByte 0 0 (lowField b) := by
  revert b; decide

theorem and_fullMask (b : Byte) : b &&& 0xFF = assembleByte (topField b) (midField b) (lowField b) := by
  revert b; decide

theorem topField_of_match {b : Byte} {v : BitVec 3} (h : b &&& 0xE0 = assembleByte v 0 0) : topField b = v := by
  simpa using congrArg topField ((and_topMask b).symm.trans h)

theorem midField_of_match {b : Byte} {v : BitVec 2} (h : b &&& 0x18 = assembleByte 0 v 0) : midField b = v := by
  simpa using congrArg midField ((and_midMask b).symm.trans h)

theorem lowField_of_match {b : Byte} {v : BitVec 3} (h : b &&& 0x07 = assembleByte 0 0 v) : lowField b = v := by
  simpa using congrArg lowField ((and_lowMask b).symm.trans h)

theorem eq_of_fullMask_match {b x : Byte} (h : b &&& 0xFF = x) : b = x := by
  rwa [show (0xFF : Byte) = BitVec.allOnes 8 from rfl, BitVec.and_allOnes] at h

/-! ## The variant row of a slot operation (30 R54) -/

/-- The variant row with the codedValue of a slot operation; a row of another kind stays as it is. -/
def Instr.toVariant : Instr → Instr
  | .ns0 v => ns0Variant v
  | .ns1 v => ns1Variant v
  | .ns2 v => ns2Variant v
  | .ws0 v => ws0Variant v
  | .ws1 v => ws1Variant v
  | .ws2 v => ws2Variant v
  | i => i

theorem decodeVariant_eq_toVariant (sel : Selection) (b : Byte) : decodeVariant sel b = (decodeSlotOperation sel b).toVariant := by
  obtain ⟨m, l⟩ := sel
  cases m <;> cases l <;> rfl

/-- Every variant is the variant of a slot operation. -/
theorem Instr.exists_toVariant {i : Instr} (h : i.kind = .variant) : ∃ j : Instr, j.kind = .slotOperation ∧ j.toVariant = i := by
  have hrow : (∃ v, ns0Variant v = i) ∨ (∃ v, ns1Variant v = i) ∨ (∃ v, ns2Variant v = i) ∨
      (∃ v, ws0Variant v = i) ∨ (∃ v, ws1Variant v = i) ∨ (∃ v, ws2Variant v = i) := by
    cases i
    case nbyte | wbyte | ns0 | ns1 | ns2 | ws0 | ws1 | ws2 => cases h
    all_goals decide
  rcases hrow with ⟨v, hv⟩ | ⟨v, hv⟩ | ⟨v, hv⟩ | ⟨v, hv⟩ | ⟨v, hv⟩ | ⟨v, hv⟩
  · exact ⟨.ns0 v, rfl, hv⟩
  · exact ⟨.ns1 v, rfl, hv⟩
  · exact ⟨.ns2 v, rfl, hv⟩
  · exact ⟨.ws0 v, rfl, hv⟩
  · exact ⟨.ws1 v, rfl, hv⟩
  · exact ⟨.ws2 v, rfl, hv⟩

/-- A variant stands where its slot operation stands, and its row's mask and match are the operand in its field. -/
theorem Instr.toVariant_row {j : Instr} (h : j.kind = .slotOperation) :
    j.toVariant.kind = .variant ∧ j.toVariant.selection = j.selection ∧ j.toVariant.bits = j.bits := by
  cases j
  case ns0 v | ns2 v | ws0 v | ws2 v => revert v; decide
  case ns1 v | ws1 v => revert v; decide
  all_goals cases h

/-! ## The rows that a byte matches -/

theorem Instr.wellFormed_iff {sel : Selection} {i : Instr} : i.wellFormed sel = true ↔ i.selection = sel := by
  obtain ⟨m, l⟩ := sel
  simp only [Instr.wellFormed, Instr.modeOk, Instr.slotOk, Instr.selection, Bool.and_eq_true, decide_eq_true_eq, Selection.mk.injEq]

/-- A row of the opcode table stands at a selection as a row of kind k, and a byte matches its mask and match. -/
structure Instr.RowMatches (k : RowKind) (sel : Selection) (b : Byte) (i : Instr) : Prop where
  kind      : i.kind = k
  selection : i.selection = sel
  bits      : b &&& i.bits.mask = i.bits.value

theorem decodeSlotOperation_matches (sel : Selection) (b : Byte) :
    (decodeSlotOperation sel b).RowMatches .slotOperation sel b := by
  obtain ⟨m, l⟩ := sel
  cases m with
  | narrow =>
    cases l with
    | s0 => exact ⟨rfl, rfl, and_lowMask b⟩
    | s1 => exact ⟨rfl, rfl, and_midMask b⟩
    | s2 => exact ⟨rfl, rfl, and_topMask b⟩
  | wide =>
    cases l with
    | s0 => exact ⟨rfl, rfl, and_topMask b⟩
    | s1 => exact ⟨rfl, rfl, and_midMask b⟩
    | s2 => exact ⟨rfl, rfl, and_lowMask b⟩

theorem Instr.RowMatches.toVariant {sel : Selection} {b : Byte} {j : Instr} (h : j.RowMatches .slotOperation sel b) :
    j.toVariant.RowMatches .variant sel b := by
  obtain ⟨hkind, hsel, hbits⟩ := Instr.toVariant_row h.kind
  exact ⟨hkind, hsel.trans h.selection, hbits ▸ h.bits⟩

theorem decodeByteFormat_matches (m : Mode) (b : Byte) : (decodeByteFormat m b).RowMatches .byteFormat ⟨m, .s0⟩ b := by
  cases m <;> exact ⟨rfl, rfl, and_fullMask b⟩

/-- Every byte decodes at every selection at which a row of the kind can stand (30 R57). -/
theorem exists_decodeByte {k : RowKind} {sel : Selection} (b : Byte) (h : k = .byteFormat → sel.slot = .s0) :
    ∃ i, decodeByte k sel b = .ok i := by
  cases k with
  | variant => exact ⟨_, rfl⟩
  | slotOperation => exact ⟨_, rfl⟩
  | byteFormat => exact ⟨decodeByteFormat sel.mode b, by simp only [decodeByte, h rfl]⟩

/-- What a byte decodes to is a row that it matches. -/
theorem decodeByte_matches {k : RowKind} {sel : Selection} {b : Byte} {i : Instr} (h : decodeByte k sel b = .ok i) :
    i.RowMatches k sel b := by
  cases k with
  | variant =>
    cases h
    rw [decodeVariant_eq_toVariant]
    exact (decodeSlotOperation_matches sel b).toVariant
  | slotOperation =>
    cases h
    exact decodeSlotOperation_matches sel b
  | byteFormat =>
    obtain ⟨m, l⟩ := sel
    cases l with
    | s0 =>
      cases h
      exact decodeByteFormat_matches m b
    | s1 => cases h
    | s2 => cases h

theorem decodeSlotOperation_of_match {b : Byte} {i : Instr} (hkind : i.kind = .slotOperation)
    (h : b &&& i.bits.mask = i.bits.value) : decodeSlotOperation i.selection b = i := by
  cases i
  case ns0 v => exact congrArg Instr.ns0 (lowField_of_match h)
  case ns1 v => exact congrArg Instr.ns1 (midField_of_match h)
  case ns2 v => exact congrArg Instr.ns2 (topField_of_match h)
  case ws0 v => exact congrArg Instr.ws0 (topField_of_match h)
  case ws1 v => exact congrArg Instr.ws1 (midField_of_match h)
  case ws2 v => exact congrArg Instr.ws2 (lowField_of_match h)
  all_goals cases hkind

/-- A variant is decoded from its match as the variant of the slot operation decoded from the same bits. -/
theorem decodeVariant_of_match {b : Byte} {i : Instr} (hkind : i.kind = .variant) (h : b &&& i.bits.mask = i.bits.value) :
    decodeVariant i.selection b = i := by
  obtain ⟨j, hj, rfl⟩ := Instr.exists_toVariant hkind
  obtain ⟨-, hsel, hbits⟩ := Instr.toVariant_row hj
  rw [hbits] at h
  rw [decodeVariant_eq_toVariant, hsel, decodeSlotOperation_of_match hj h]

theorem decodeByteFormat_of_match {b : Byte} {i : Instr} (hkind : i.kind = .byteFormat) (h : b &&& i.bits.mask = i.bits.value) :
    i.slot = .s0 ∧ decodeByteFormat i.mode b = i := by
  cases i
  case nbyte x y z | wbyte x y z =>
    rw [eq_of_fullMask_match h]
    simp [Instr.slot, Instr.mode, decodeByteFormat, slot0Field, slot2Field, Instr.bits]
  all_goals cases hkind

/-- A byte decodes to a row exactly when it matches it: the decoder by fields (30 R50, R51, R53) is the decoder by the
masks and matches of the opcode table. -/
theorem decodeByte_eq_ok_iff {k : RowKind} {sel : Selection} {b : Byte} {i : Instr} :
    decodeByte k sel b = .ok i ↔ i.RowMatches k sel b := by
  refine ⟨decodeByte_matches, ?_⟩
  rintro ⟨hkind, rfl, h⟩
  cases k with
  | variant => exact congrArg Except.ok (decodeVariant_of_match hkind h)
  | slotOperation => exact congrArg Except.ok (decodeSlotOperation_of_match hkind h)
  | byteFormat =>
    obtain ⟨hslot, hdec⟩ := decodeByteFormat_of_match hkind h
    simp only [decodeByte, Instr.selection, hslot, hdec]

theorem decode_cons_of_ok {k : RowKind} {sel : Selection} {b : Byte} {i : Instr} (h : decodeByte k sel b = .ok i)
    (rest : List Byte) : decode k sel (b :: rest) = .ok (i, rest) := by
  simp only [decode, h, Except.map]


theorem encodeKeepsRow (i : Instr) : Laws.EncodeKeepsRow.Statement i := by
  cases i
  case nbyte a b c => exact Laws.EncodeKeepsRow.nbyte a b c
  case wbyte a b c => exact Laws.EncodeKeepsRow.wbyte a b c
  case ns0 v => exact Laws.EncodeKeepsRow.ns0 v
  case ns1 v => exact Laws.EncodeKeepsRow.ns1 v
  case ns2 v => exact Laws.EncodeKeepsRow.ns2 v
  case ws0 v => exact Laws.EncodeKeepsRow.ws0 v
  case ws1 v => exact Laws.EncodeKeepsRow.ws1 v
  case ws2 v => exact Laws.EncodeKeepsRow.ws2 v
  all_goals exact Laws.EncodeKeepsRow.of_value_under_mask (by decide)

/-- The byte that holds an instruction decodes to it at the instruction's selection. -/
theorem decodeByte_encodeInto (i : Instr) (others : Byte) : decodeByte i.kind i.selection (i.encodeInto others) = .ok i :=
  decodeByte_eq_ok_iff.2 ⟨rfl, rfl, (encodeKeepsRow i others).1⟩

end Sys2Proof

namespace Sys2Proof.Machine

/-! ## The branches of a codedValue (30 R54; 40 R60, R61) -/

/-- -1 - T is the one's complement of T. -/
theorem branchStep_negative (w : Word) : branchStep .negative w = ~~~w := by
  rw [branchStep, show -1 - w.toInt = -w.toInt + -1 by omega, BitVec.ofInt_add, BitVec.ofInt_neg, BitVec.ofInt_toInt,
    BitVec.not_eq_neg_add, BitVec.sub_eq_add_neg]
  rfl

theorem branchStep_of_ne {br br' : Branch} (h : br' ≠ br) (w : Word) : branchStep br' w = ~~~branchStep br w := by
  cases br <;> cases br'
  case magnitude.negative => exact branchStep_negative w
  case negative.magnitude => rw [branchStep_negative, BitVec.not_not]; rfl
  all_goals exact absurd rfl h

theorem branch_and_column_of_lt {s : Nat} {v : Fin (2 * s)} (h : v.val < s) :
    branchOf s v = .magnitude ∧ (columnOf s v).val = v.val := by
  simp [branchOf, columnOf, h]

theorem branch_and_column_of_le {s : Nat} {v : Fin (2 * s)} (h : s ≤ v.val) :
    branchOf s v = .negative ∧ (columnOf s v).val = 2 * s - v.val - 1 := by
  simp [branchOf, columnOf, Nat.not_lt.2 h]

/-- Mirrored codedValues take the same column on different branches. -/
theorem branch_and_column_of_mirrored {s : Nat} {v u : Fin (2 * s)} (h : u.val = 2 * s - 1 - v.val) :
    branchOf s u ≠ branchOf s v ∧ columnOf s u = columnOf s v := by
  have hv := v.isLt
  rcases Nat.lt_or_ge v.val s with hlt | hge
  · obtain ⟨hbr, hcol⟩ := branch_and_column_of_lt hlt
    obtain ⟨hbr', hcol'⟩ := branch_and_column_of_le (v := u) (by omega)
    exact ⟨by rw [hbr, hbr']; nofun, Fin.ext (by omega)⟩
  · obtain ⟨hbr, hcol⟩ := branch_and_column_of_le hge
    obtain ⟨hbr', hcol'⟩ := branch_and_column_of_lt (v := u) (by omega)
    exact ⟨by rw [hbr, hbr']; nofun, Fin.ext (by omega)⟩

/-! ## The meanings of the variants and of NBYTE -/

/-- A variant does what its slot operation does: its row writes out the branch, column and delta index of its codedValue. -/
theorem exec_toVariant (i : Instr) (s : State) : exec i.toVariant s = exec i s := by
  cases i
  case ns0 v => exact exec_ns0Variant v s
  case ns1 v => exact exec_ns1Variant v s
  case ns2 v => exact exec_ns2Variant v s
  case ws0 v => exact exec_ws0Variant v s
  case ws1 v => exact exec_ws1Variant v s
  case ws2 v => exact exec_ws2Variant v s
  all_goals rfl

theorem exec_nbyte (a : BitVec 3) (b : BitVec 2) (c : BitVec 3) (s : State) :
    exec (.nbyte a b c) s = runOnSelected (fun bd e => byteOps s.rom bd .narrow a b c e) s := rfl

/-- The variant rows of a slot operation, each with its codedValue. -/
def codedRows {n : Nat} (row : Fin n → Instr) : List (Instr × Fin n) := (List.finRange n).map fun v => (row v, v)

theorem row_of_mem_codedRows {n : Nat} {row : Fin n → Instr} {p : Instr × Fin n} (h : p ∈ codedRows row) : p.1 = row p.2 := by
  obtain ⟨v, -, rfl⟩ := List.mem_map.1 h
  rfl

section SelectedEngine

variable {k : Nat} {t : Family k} {s : State} {b : Bound} {c : Nat} {e : Engine}

/-- A Narrow slot operation completes on the selected engine (41 R68; 42 R84 to R86). -/
theorem runOnSelected_narrow (h : t.deltasOk = true) (hcmd : s.cmd = some b) (hsel : s.selected = some (c, e)) (v : Fin (2 * k)) :
    ∃ e', runOnSelected (fun b e => slotOp t b .narrow v e) s = .next (s.commit c e') ∧
      NarrowEffect t v (bytesPerFrame b.mode) e e' := by
  obtain ⟨e', ho, eff⟩ := slotOp_narrow h b v e
  exact ⟨e', runOnSelected_next hcmd hsel ho, eff⟩

/-- A Wide slot operation completes on the selected engine where its reorderBytes arguments are in int16 (41 R73; 42 R87 to R89). -/
theorem runOnSelected_wide (h : t.deltasOk = true) (hcmd : s.cmd = some b) (hsel : s.selected = some (c, e)) (v : Fin (2 * k))
    (hargs : wideArgumentsOk e.cs (stepValue t e.cs.index v)) :
    ∃ e', runOnSelected (fun b e => slotOp t b .wide v e) s = .next (s.commit c e') ∧
      WideEffect t v (bytesPerFrame b.mode) e e' := by
  obtain ⟨e', ho, eff⟩ := slotOp_wide h b v e hargs
  exact ⟨e', runOnSelected_next hcmd hsel ho, eff⟩

end SelectedEngine

/-! ## The fetch of a running command (42 R82) -/

theorem State.fetch_of_read (s : State) {b : Bound} {c : Nat} {e : Engine} {v : Byte} (hl : e.cur.l = .s0)
    (h : memRead b (addr b c e.cur.f e.cur.k) = .ok v) :
    s.fetch b c e = .latched v (s.setEngine c { e with latch := some v }) := by
  simp only [State.fetch, hl, h]

theorem State.fetch_of_latch (s : State) {b : Bound} {c : Nat} {e : Engine} {v : Byte} (hl : e.cur.l ≠ .s0)
    (h : e.latch = some v) : s.fetch b c e = .latched v s := by
  rcases State.fetch_cases s b c e with ⟨hl', -, -⟩ | ⟨hl', -, -⟩ | ⟨-, hnone, -⟩ | ⟨w, -, hw, hf⟩
  · exact absurd hl' hl
  · exact absurd hl' hl
  · cases h.symm.trans hnone
  · cases h.symm.trans hw
    exact hf

/-! ## The obligations -/

/-- Settles O2: the byte matches the instruction's row, and what matches a row decodes to it. -/
theorem encodedInstructionDecodesBack : Obligations.EncodedInstructionDecodesBack := fun i others rest =>
  ⟨decode_cons_of_ok (decodeByte_encodeInto i others) rest, decode_cons_of_ok (decodeByte_encodeInto i 0) []⟩

/-- Settles O4: the case of the variants of the equivalence of fields and rows. -/
theorem variantDecodesExactlyWhereItsRowMatches : Obligations.VariantDecodesExactlyWhereItsRowMatches := by
  intro sel b i hkind
  have hdecode : decodeVariant sel b = i ↔ decodeByte .variant sel b = .ok i := by rw [decodeByte, Except.ok.injEq]
  rw [hdecode, decodeByte_eq_ok_iff, Instr.wellFormed_iff]
  exact ⟨fun h => ⟨h.selection, h.bits⟩, fun ⟨hsel, hbits⟩ => ⟨hkind, hsel, hbits⟩⟩

/-- Settles O6: the mirrored codedValue reads the same table entry on the other branch. -/
theorem mirroredCodedValuesGiveComplementSteps : Obligations.MirroredCodedValuesGiveComplementSteps := by
  intro s t cs v u hdeltas hu
  obtain ⟨hbranch, hcolumn⟩ := branch_and_column_of_mirrored hu
  obtain ⟨w, hv, -⟩ := stepWith_ok hdeltas (branchOf s v) (columnOf s v) v cs
  obtain ⟨w', hu', -⟩ := stepWith_ok hdeltas (branchOf s u) (columnOf s u) u cs
  refine ⟨branch_and_column_of_lt, branch_and_column_of_le, _, _, _, _, hv, hu', ?_⟩
  simp only [hcolumn, branchStep_of_ne hbranch]

/-- Settles O18: the rows listed are the variants of N.S0 and N.S2, and of N.S1, each of which is its slot operation. -/
theorem narrowVariantsComplete : Obligations.NarrowVariantsComplete := by
  intro s b c e hrom hcmd hsel
  have hwide := Tables.conforms_wideDeltas hrom
  have hnarrow := Tables.conforms_narrowDeltas hrom
  refine ⟨fun p hp => ?_, fun p hp => ?_⟩
  · have hrows : p ∈ codedRows (fun v => ns0Variant ⟨v⟩) ++ codedRows (fun v => ns2Variant ⟨v⟩) := hp
    rcases List.mem_append.1 hrows with h | h
    · rw [row_of_mem_codedRows h, exec_ns0Variant]
      exact runOnSelected_narrow hwide hcmd hsel p.2
    · rw [row_of_mem_codedRows h, exec_ns2Variant]
      exact runOnSelected_narrow hwide hcmd hsel p.2
  · have hrows : p ∈ codedRows (fun v => ns1Variant ⟨v⟩) := hp
    rw [row_of_mem_codedRows hrows, exec_ns1Variant]
    exact runOnSelected_narrow hnarrow hcmd hsel p.2

/-- Settles O20: the rows listed are the variants of W.S0 and W.S2, and of W.S1, each of which is its slot operation. -/
theorem wideVariantsComplete : Obligations.WideVariantsComplete := by
  intro s b c e hrom hcmd hsel
  have hwide := Tables.conforms_wideDeltas hrom
  have hnarrow := Tables.conforms_narrowDeltas hrom
  refine ⟨fun p hp hargs => ?_, fun p hp hargs => ?_⟩
  · have hrows : p ∈ codedRows (fun v => ws0Variant ⟨v⟩) ++ codedRows (fun v => ws2Variant ⟨v⟩) := hp
    rcases List.mem_append.1 hrows with h | h
    · rw [row_of_mem_codedRows h, exec_ws0Variant]
      exact runOnSelected_wide hwide hcmd hsel p.2 hargs
    · rw [row_of_mem_codedRows h, exec_ws2Variant]
      exact runOnSelected_wide hwide hcmd hsel p.2 hargs
  · have hrows : p ∈ codedRows (fun v => ws1Variant ⟨v⟩) := hp
    rw [row_of_mem_codedRows hrows, exec_ws1Variant]
    exact runOnSelected_wide hnarrow hcmd hsel p.2 hargs

/-- Settles O21: each slot completes; in Wide the history stays in its range from slot to slot (10 R22). -/
theorem byteFormatsCompleteAsThreeSlotOperations : Obligations.ByteFormatsCompleteAsThreeSlotOperations := by
  intro s bd ch e hrom hcmd hsel v₀ v₁ v₂
  have hwide := Tables.conforms_wideDeltas hrom
  have hnarrow := Tables.conforms_narrowDeltas hrom
  refine ⟨?_, fun hhist => ?_⟩
  · obtain ⟨e₁, h₀, eff₀⟩ := slotOp_narrow hwide bd v₀.toFin e
    obtain ⟨e₂, h₁, eff₁⟩ := slotOp_narrow hnarrow bd v₁.toFin e₁
    obtain ⟨e₃, h₂, eff₂⟩ := slotOp_narrow hwide bd v₂.toFin e₂
    refine ⟨e₁, e₂, e₃, ?_, eff₀, eff₁, eff₂⟩
    rw [exec_nbyte]
    exact runOnSelected_next hcmd hsel ((byteOps_eq_slot2 h₀ h₁ v₂).trans h₂)
  · obtain ⟨e₁, h₀, eff₀⟩ := slotOp_wide hwide bd v₀.toFin e (hhist.arguments _)
    have hhist₁ := eff₀.historyOk hhist
    obtain ⟨e₂, h₁, eff₁⟩ := slotOp_wide hnarrow bd v₁.toFin e₁ (hhist₁.arguments _)
    have hhist₂ := eff₁.historyOk hhist₁
    obtain ⟨e₃, h₂, eff₂⟩ := slotOp_wide hwide bd v₂.toFin e₂ (hhist₂.arguments _)
    refine ⟨e₁, e₂, e₃, ?_, eff₀, eff₁, eff₂⟩
    rw [exec_wbyte]
    exact runOnSelected_next hcmd hsel ((byteOps_eq_slot2 h₀ h₁ v₂).trans h₂)

/-- Settles O22: the decoded variant is the variant of the decoded slot operation. -/
theorem variantRowsMeanTheirSlotOperation : Obligations.VariantRowsMeanTheirSlotOperation := fun sel b s => by
  rw [decodeVariant_eq_toVariant, exec_toVariant]

/-- Settles O1: each byte's fields, written out, pick the row. -/
theorem specBytesDecodeToTheirRows : Obligations.SpecBytesDecodeToTheirRows :=
  ⟨rfl, rfl, rfl, rfl, rfl, rfl, rfl, rfl, rfl⟩

/-- Settles O3: a byte decodes to a row that it matches, and such a row stands at the selection. -/
theorem everyByteIsAValidCodedByte : Obligations.EveryByteIsAValidCodedByte := by
  intro k sel b rest hslot
  obtain ⟨i, hi⟩ := exists_decodeByte b hslot
  have hrow := decodeByte_matches hi
  exact ⟨i, decode_cons_of_ok hi rest, Instr.wellFormed_iff.2 hrow.selection, hrow.kind⟩

/-- Settles O5: the six selections read LOW, MID and TOP. -/
theorem codedValueIsItsZeroExtendedField : Obligations.CodedValueIsItsZeroExtendedField := fun b =>
  ⟨⟨_, rfl, lowField_toNat b⟩, ⟨_, rfl, midField_toNat b⟩, ⟨_, rfl, topField_toNat b⟩,
   ⟨_, rfl, topField_toNat b⟩, ⟨_, rfl, midField_toNat b⟩, ⟨_, rfl, lowField_toNat b⟩⟩

/-- Settles O30: the fetch gives the byte, and the step runs the variant that the byte decodes to. -/
theorem stepRunsTheDecodedInstruction : Obligations.StepRunsTheDecodedInstruction := by
  intro s b c e v i hrom hs hb hsel hdecode _
  rw [State.selected_eq hb] at hsel
  cases hdecode
  rw [step_of_busy hrom hs]
  exact ⟨fun hl hread => runCommand_of_latched hb hsel (s.fetch_of_read hl hread),
    fun hl hlatch => runCommand_of_latched hb hsel (s.fetch_of_latch hl hlatch)⟩

end Sys2Proof.Machine

/-! The step quantizer: its row, its step from the old index, and the index that it leaves (40). -/

namespace Sys2Proof.Machine

/-! ## The row (40 R59) -/

theorem rowOf_val (w : Word) : (rowOf w).val = w.toNat / 16 % 128 := by
  calc (rowOf w).val
    _ = (w.toNat &&& 0x7F0) >>> 4 := by simp [rowOf]
    _ = w.toNat >>> 4 &&& (2 ^ 7 - 1) := Nat.shiftRight_and_distrib
    _ = w.toNat / 16 % 128 := by rw [Nat.and_two_pow_sub_one_eq_mod, Nat.shiftRight_eq_div_pow]

/-! ## The step of each branch (40 R60, R61) -/

theorem stepValue_of_lt {s : Nat} (t : Family s) (index : Word) {v : Fin (2 * s)} (h : v.val < s) :
    stepValue t index v = (t.steps[(rowOf index).val][v.val]).toInt := dif_pos h

theorem stepValue_of_le {s : Nat} (t : Family s) (index : Word) {v : Fin (2 * s)} (h : s ≤ v.val) :
    stepValue t index v = -1 - (t.steps[(rowOf index).val][2 * s - v.val - 1]'(by have := v.isLt; omega)).toInt :=
  dif_neg (Nat.not_lt.2 h)

/-! ## The next index (40 R62, R64) -/

theorem indexAfter_eq_ite {s : Nat} (t : Family s) (index : Word) (v : Fin (2 * s)) :
    indexAfter t index v =
      if index.toInt + (t.deltas[v.val]).toInt - index.toInt / 32 < 0 then 0
      else index.toInt + (t.deltas[v.val]).toInt - index.toInt / 32 := by
  rw [indexAfter]
  split
  next hneg => exact max_eq_right hneg.le
  next hpos => exact max_eq_left (not_lt.1 hpos)

theorem indexAfter_nonneg {s : Nat} (t : Family s) (index : Word) (v : Fin (2 * s)) : 0 ≤ indexAfter t index v :=
  le_max_right _ _

/-- At index = 32·d the leak index / 32 takes back what a delta of d adds; below it the sum stays below. -/
theorem indexAfter_le {s : Nat} {t : Family s} {d : Int} {index : Word} {v : Fin (2 * s)} (hd : 0 ≤ d)
    (hdelta : (t.deltas[v.val]).toInt ≤ d) (hindex : index.toInt ≤ 32 * d) : indexAfter t index v ≤ 32 * d := by
  rw [indexAfter]
  omega

/-! ## decodeStep (40 R63) -/

theorem decodeStep_stepDecoded {s : Nat} {t : Family s} (hsteps : t.stepsOk = true) (hdeltas : t.deltasOk = true)
    (cs : ChannelState) (v : Fin (2 * s)) :
    ∃ cs' step, decodeStep t cs v = .ok (cs', step) ∧ StepDecoded t v cs cs' step := by
  obtain ⟨w, step, hok, hstep, hindex⟩ := decodeStep_ok hdeltas cs v
  refine ⟨_, step, hok, fun hv => ?magnitude, fun hv => ?negative, hindex.trans (indexAfter_eq_ite t cs.index v), rfl, rfl, rfl, rfl⟩
  case magnitude =>
    have hentry := Family.step_nonneg hsteps (rowOf cs.index).val v.val (rowOf cs.index).isLt hv
    rw [stepValue_of_lt t cs.index hv] at hstep
    exact ⟨BitVec.eq_of_toInt_eq hstep, hstep ▸ hentry⟩
  case negative =>
    have hentry := Family.step_nonneg hsteps (rowOf cs.index).val (2 * s - v.val - 1) (rowOf cs.index).isLt (by omega)
    rw [stepValue_of_le t cs.index hv] at hstep
    exact ⟨hstep, by omega⟩

/-! ## The obligations -/

/-- Settles O8: both families of a conforming ROM have conforming steps and deltas. -/
theorem decodeStepIsTotalAndAdvancesIndex : Obligations.DecodeStepIsTotalAndAdvancesIndex := fun _ hrom cs =>
  ⟨decodeStep_stepDecoded (Tables.conforms_wideSteps hrom) (Tables.conforms_wideDeltas hrom) cs,
   decodeStep_stepDecoded (Tables.conforms_narrowSteps hrom) (Tables.conforms_narrowDeltas hrom) cs⟩

/-- Settles O9: the new index is indexAfter, which the bound of the deltas bounds. -/
theorem indexStaysWithinThirtyTwoTimesLargestDelta : Obligations.IndexStaysWithinThirtyTwoTimesLargestDelta := by
  intro s t d cs v hd hd' hdelta _ hindex
  have hdeltas : t.deltasOk = true := Family.deltasOk_iff.2 fun u hu => (hdelta ⟨u, hu⟩).trans hd'
  obtain ⟨w, step, hok, -, hw⟩ := decodeStep_ok hdeltas cs v
  have hlow : 0 ≤ w.toInt := hw ▸ indexAfter_nonneg t cs.index v
  have hhigh : w.toInt ≤ 32 * d := hw ▸ indexAfter_le hd (hdelta v) hindex
  exact ⟨_, step, hok, hlow, hhigh, hhigh.trans (by omega)⟩

/-- Settles O7: masking bits [10:4] and shifting them down is the remainder mod 128 of index / 16. -/
theorem rowIsBits10To4OfIndex : Obligations.RowIsBits10To4OfIndex := by
  refine ⟨rowOf_val, fun w hw => ?_, rowOf_val _, rowOf_val _⟩
  have hnat : w.toInt = w.toNat := by rw [BitVec.toInt_eq_toNat_cond] at hw ⊢; omega
  rw [rowOf_val, hnat]
  norm_cast

end Sys2Proof.Machine

/-! The sample synthesizers: their helpers, what each reads and writes, and why no step of a command stops in them (41). -/

namespace Sys2Proof.Machine

/-! ## asymmetricClip (41 R66) -/

theorem asymmetricClip_of_gt {n : Int} (h : 32767 < n) : asymmetricClip n = 32767 := if_pos h

theorem asymmetricClip_of_lt {n : Int} (h : n < -32768) : asymmetricClip n = -32767 :=
  (if_neg (by omega)).trans (if_pos h)

theorem asymmetricClip_of_int16 {n : Int} (h : -32768 ≤ n ∧ n ≤ 32767) : asymmetricClip n = n :=
  (if_neg (by omega)).trans (if_neg (by omega))

/-- The lower clip stops at -32767, so only -32768 itself gives -32768. -/
theorem asymmetricClip_eq_min_iff {n : Int} : asymmetricClip n = -32768 ↔ n = -32768 := by
  rcases lt_or_ge 32767 n with hhigh | hhigh
  · rw [asymmetricClip_of_gt hhigh]; omega
  · rcases lt_or_ge n (-32768) with hlow | hlow
    · rw [asymmetricClip_of_lt hlow]; omega
    · rw [asymmetricClip_of_int16 ⟨hlow, hhigh⟩]

/-! ## reorderBytes (41 R67) -/

theorem reorderBytes_eq_append (x : Word) : reorderBytes x = x.extractLsb' 8 8 ++ x.extractLsb' 8 8 := by
  refine BitVec.eq_of_getLsbD_eq fun i hi => ?_
  rw [BitVec.getLsbD_append]
  by_cases hlow : i < 8 <;> simp [reorderBytes, hlow, hi]

theorem getLsbD_highByteMask : ∀ i < 16, (0xFF00#16).getLsbD i = decide (8 ≤ i) := by decide

theorem getLsbD_lowByteMask : ∀ i < 16, (0xFF#16).getLsbD i = decide (i < 8) := by decide

/-- HCP's formula: bit i is bit i of x in the high byte, and bit i + 8 of x in the low one. -/
theorem highByte_or_shiftedByte (x : Word) :
    (x &&& 0xFF00#16) ||| ((x >>> 8) &&& 0xFF#16) = x.extractLsb' 8 8 ++ x.extractLsb' 8 8 := by
  refine BitVec.eq_of_getLsbD_eq fun i hi => ?_
  rw [BitVec.getLsbD_append, BitVec.getLsbD_or, BitVec.getLsbD_and, BitVec.getLsbD_and, getLsbD_highByteMask i hi,
    getLsbD_lowByteMask i hi, BitVec.getLsbD_ushiftRight]
  by_cases hlow : i < 8
  · simp [hlow]
  · have hback : 8 + (i - 8) = i := by omega
    have hbyte : i - 8 < 8 := by omega
    simp [hlow, hback, hbyte, Nat.le_of_not_lt hlow]

/-! ## The synthesizers (41 R68, R73) -/

theorem leak_eq (c : Int) : leak c = c - c / 8 := by rw [leak, sar_3]

/-- wideSynth neither reads nor writes index (41 R73). -/
theorem wideSynth_with_index (cs : ChannelState) (step w : Word) :
    wideSynth { cs with index := w } step = (wideSynth cs step).map fun p => ({ p.1 with index := w }, p.2) := by
  have harg1 : wideArgument1 { cs with index := w } step.toInt = wideArgument1 cs step.toInt := rfl
  have harg2 : wideArgument2 { cs with index := w } step.toInt = wideArgument2 cs step.toInt := rfl
  rw [wideSynth_eq, wideSynth_eq, harg1, harg2]
  cases sampleOf (wideArgument1 cs step.toInt) with
  | error f => rfl
  | ok s1 =>
    cases sampleOf (wideArgument2 cs step.toInt) with
    | error f => rfl
    | ok s2 => rfl

/-! ## A machine of the invariant has a command while it is BUSY (10 R35, R36) -/

theorem State.Inv.exists_bound {s : State} (h : s.Inv) (hs : s.status = .busy) : ∃ b, s.cmd = some b := by
  cases hb : s.cmd with
  | some b => exact ⟨b, rfl⟩
  | none => simp [State.Inv, hs, hb] at h

/-! ## The obligations -/

/-- Settles O43: a command's step is a move of the selected engine, which neither its fetch nor its synthesizer can stop, or
the completion; a machine that is not BUSY accepts a command or stays. -/
theorem invariantMachineAlwaysSteps : Obligations.InvariantMachineAlwaysSteps := by
  intro s hinv hrom
  by_cases hs : s.status = .busy
  · obtain ⟨b, hb⟩ := hinv.exists_bound hs
    have hbusy : s.BusyInv b := (State.inv_busy hs hb).1 hinv
    cases hsel : s.selectedIn b with
    | none => exact ⟨s.finish, (step_of_busy hrom hs).trans (runCommand_of_complete hb hsel)⟩
    | some p =>
      obtain ⟨e', -, hstep⟩ := hbusy.step_moves hrom hs hb hsel
      exact ⟨_, hstep⟩
  · exact ⟨s.acceptNext, step_of_not_busy hrom hs⟩

/-- Settles O12: the clipped sum and its leak are in int16, so neither the sample nor the store of level stops. -/
theorem narrowSynthesizerLeaksAndEmitsOneSample : Obligations.NarrowSynthesizerLeaksAndEmitsOneSample := by
  intro cs step
  have hcurrent := currentOf_range step.toInt cs.level.toInt
  have hleak := leak_range hcurrent
  refine ⟨_, currentOf step.toInt cs.level.toInt, rfl, narrowSynth_ok cs step, toInt_ofInt16 hcurrent, ?_⟩
  rw [toInt_ofInt16 (by omega), leak_eq]

/-- Settles O13: a history in its range keeps both reorderBytes arguments in int16. -/
theorem wideSynthesizerFeedsBackAndInterpolates : Obligations.WideSynthesizerFeedsBackAndInterpolates := by
  intro cs step hhistory
  obtain ⟨cs', samples, hok, hsynthesis⟩ := wideSynth_ok (hhistory.arguments step.toInt)
  refine ⟨cs', samples, hok, hsynthesis, fun w => ?_⟩
  rw [wideSynth_with_index, hok, Except.map]

/-- Settles O14: the stores of a Wide synthesis are in int16 in every state, so only its two sample arguments can stop it. -/
theorem wideSynthesizerStopsExactlyOutsideInt16 : Obligations.WideSynthesizerStopsExactlyOutsideInt16 := fun _ _ =>
  ⟨wideSynth_fault, wideSynth_ok⟩

/-- Settles O10: one equation per branch of the clip. -/
theorem asymmetricClipValues : Obligations.AsymmetricClipValues := fun n =>
  ⟨asymmetricClip_of_gt, asymmetricClip_of_lt, fun hlow hhigh => asymmetricClip_of_int16 ⟨hlow, hhigh⟩,
    (asymmetricClip_range n).1, (asymmetricClip_range n).2, asymmetricClip_eq_min_iff⟩

/-- Settles O11: reorderBytes is the high byte twice. -/
theorem reorderBytesDuplicatesTheHighByte : Obligations.ReorderBytesDuplicatesTheHighByte := by
  intro x
  refine ⟨?formula, ?low, ?high, fun y hy => ?dependence⟩
  case formula => rw [reorderBytes_eq_append, highByte_or_shiftedByte]
  case low => rw [reorderBytes_eq_append]; exact BitVec.extractLsb'_append_eq_right
  case high => rw [reorderBytes_eq_append]; exact BitVec.extractLsb'_append_eq_left
  case dependence => rw [reorderBytes_eq_append, reorderBytes_eq_append, hy]

end Sys2Proof.Machine

/-! The command from its checks to its outputs: acceptance and abort, the loop nest's outputs, lanes, and the three slots of
a coded byte (42; 60 R98). -/

namespace Sys2Proof.Machine

/-! ## The lengths of the loop nest's outputs (42 R90, R92) -/

/-- A sequence that answers is a first part that answered, and a second part that answered on its value. -/
theorem bind_ok_inv {α β : Type} {x : Except Fault α} {f : α → Except Fault β} {r : β} (h : x >>= f = .ok r) :
    ∃ a, x = .ok a ∧ f a = .ok r := by
  cases x with
  | error er => cases h
  | ok a => exact ⟨a, rfl, h⟩

theorem referenceSlot_length {rom : Tables} {m : Mode} {l : Slot} {v : Byte} {cs cs' : ChannelState} {samples : List Word}
    (h : referenceSlot rom m l v cs = .ok (cs', samples)) : samples.length = samplesPerSlot m := by
  cases l <;>
    obtain ⟨p, -, hsyn⟩ := bind_ok_inv h <;>
    exact (synthesize_frame hsyn).1

/-- The loop nest gives each channel samplesPerSlot samples per slot operation. -/
theorem referenceChannel_length {rom : Tables} {cmd : Command} {ch n : Nat} {cs : ChannelState} {out : List Word}
    (h : referenceChannel rom cmd ch n = .ok (cs, out)) : out.length = samplesPerSlot cmd.mode * n := by
  induction n generalizing cs out with
  | zero =>
    cases h
    rfl
  | succ n ih =>
    obtain ⟨before, hbefore, hrest⟩ := bind_ok_inv h
    obtain ⟨slot, hslot, hout⟩ := bind_ok_inv hrest
    cases hout
    rw [List.length_append, ih hbefore, referenceSlot_length hslot, Nat.mul_succ]

/-- 9 samples per frame in Narrow, 36 in Wide (42 R92). -/
theorem samples_of_channel {F : Int} (hF : 0 ≤ F) :
    ((samplesPerSlot .narrow * slotsPerChannel .narrow F : Nat) : Int) = 9 * F ∧
    ((samplesPerSlot .wide * slotsPerChannel .wide F : Nat) : Int) = 36 * F := by
  simp only [samplesPerSlot, slotsPerChannel, bytesPerFrame]
  omega

/-! ## The addresses of the spec's lane stride (42 R81) -/

/-- With the spec's lane stride the lanes of a frame follow one another, and the frames follow one another. -/
theorem addrWith_laneStride_eq (m : Mode) (C c f k : Nat) :
    addrWith (laneStride m) C c f k = ((c + C * f) * bytesPerFrame m + k : Nat) := by
  rw [laneStride_eq_bytesPerFrame, addrWith]
  push_cast
  ring

/-- A number has one (c, f, k) with c < C and k < L: its digits in the mixed base. -/
theorem laneDigits_unique {C L n c f k : Nat} (hC : 0 < C) (hL : 0 < L) :
    (c < C ∧ k < L ∧ (c + C * f) * L + k = n) ↔ c = n / L % C ∧ f = n / L / C ∧ k = n % L := by
  have hbyte := Nat.div_mod_unique (a := n) (b := L) (c := k) (d := c + C * f) hL
  have hlane := Nat.div_mod_unique (a := n / L) (b := C) (c := c) (d := f) hC
  rw [Nat.mul_comm _ L, Nat.add_comm (L * _)]
  constructor
  · rintro ⟨hc, hk, hn⟩
    obtain ⟨hq, hr⟩ := hbyte.2 ⟨hn, hk⟩
    obtain ⟨hf, hc'⟩ := hlane.2 ⟨hq.symm, hc⟩
    exact ⟨hc'.symm, hf.symm, hr.symm⟩
  · rintro ⟨rfl, rfl, rfl⟩
    obtain ⟨hq, hc⟩ := hlane.1 ⟨rfl, rfl⟩
    obtain ⟨hn, hk⟩ := hbyte.1 ⟨hq.symm, rfl⟩
    exact ⟨hc, hk, hn⟩

/-! ## The lane of a channel as a command of its own (42 R93) -/

theorem Command.Legal.lane {cmd : Command} (h : cmd.Legal) (ch : Nat) : (cmd.lane ch).Legal := by
  refine ⟨le_rfl, h.frames, ?_⟩
  have hframes : (cmd.frameCount.toNat : Int) = cmd.frameCount := Int.toNat_of_nonneg h.frames
  simp only [Command.lane, List.length_map, List.length_range, Int.one_mul]
  push_cast
  rw [hframes]

/-- Byte k of frame f of the lane alone is byte k of frame f of the channel. -/
theorem Command.byteAt_lane (cmd : Command) (ch : Nat) {f k : Nat} (hf : (f : Int) < cmd.frameCount)
    (hk : k < bytesPerFrame cmd.mode) : (cmd.lane ch).byteAt 0 f k = cmd.byteAt ch f k := by
  have haddr : addrWith (laneStride cmd.mode) (1 : Int) (0 : Nat) f k = (k + bytesPerFrame cmd.mode * f : Nat) := by
    have h := addrWith_laneStride_eq cmd.mode 1 0 f k
    rw [Nat.cast_one] at h
    rw [h]
    congr 1
    ring
  have hlt : k + bytesPerFrame cmd.mode * f < cmd.frameCount.toNat * bytesPerFrame cmd.mode := by
    have hle : (f + 1) * bytesPerFrame cmd.mode ≤ cmd.frameCount.toNat * bytesPerFrame cmd.mode :=
      Nat.mul_le_mul_right _ (by omega)
    rw [Nat.mul_comm _ f]
    rw [Nat.add_mul] at hle
    omega
  obtain ⟨hdiv, hmod⟩ := (Nat.div_mod_unique (d := f) (Nat.zero_lt_of_lt hk)).2 ⟨rfl, hk⟩
  simp only [Command.byteAt, Command.lane, haddr, Int.toNat_natCast, List.getD_eq_getElem?_getD, List.getElem?_map,
    List.getElem?_range hlt, Option.map_some, Option.getD_some, hdiv, hmod]

/-- A lane decoded alone gives the channel's output, and no other. -/
theorem LoopNestOutputs.lane {rom : Tables} {cmd : Command} {outs : List (List Word)} {ch : Nat} {out : List Word}
    (h : LoopNestOutputs rom cmd outs) (hout : outs[ch]? = some out) : LoopNestOutputs rom (cmd.lane ch) [out] := by
  refine ⟨rfl, fun n x hx => ?_⟩
  obtain ⟨rfl, rfl⟩ : n = 0 ∧ x = out := by
    cases n with
    | zero => exact ⟨rfl, (Option.some.inj hx).symm⟩
    | succ n => cases hx
  obtain ⟨cs, href⟩ := h.channel ch x hout
  have hsame : referenceChannel rom (cmd.lane ch) 0 (slotsPerChannel cmd.mode cmd.frameCount) =
      referenceChannel rom cmd ch (slotsPerChannel cmd.mode cmd.frameCount) :=
    referenceChannel_congr rom (cmd := cmd) (cmd' := cmd.lane ch) rfl (fun _ _ hf hk => cmd.byteAt_lane ch hf hk) le_rfl
  exact ⟨cs, hsame.trans href⟩

/-! ## The checks of a command (42 R76 to R78) -/

theorem checkCommand_of_illegalCounts {cmd : Command} (h : cmd.channelCount ≤ 0 ∨ cmd.frameCount < 0) :
    checkCommand (latchCommand cmd) = some (.invalidParameters cmd.channelCount cmd.frameCount) := if_pos h

theorem checkCommand_of_shortBuffer {cmd : Command} (hchannels : 1 ≤ cmd.channelCount) (hframes : 0 ≤ cmd.frameCount)
    (h : (cmd.buffer.length : Int) < cmd.channelCount * cmd.frameCount * bytesPerFrame cmd.mode) :
    checkCommand (latchCommand cmd) =
      some (.bufferTooShort (cmd.channelCount * cmd.frameCount * bytesPerFrame cmd.mode) cmd.buffer.length) :=
  (if_neg (show ¬ (cmd.channelCount ≤ 0 ∨ cmd.frameCount < 0) by omega)).trans (if_pos h)

theorem Command.legal_iff {cmd : Command} : cmd.Legal ↔ checkCommand (latchCommand cmd) = none := by
  refine ⟨Command.Legal.checkCommand, fun h => ?_⟩
  obtain ⟨hchannels, hframes, henough⟩ := checkCommand_none_iff.1 h
  exact ⟨hchannels, hframes, henough⟩

/-! ## The acceptance and the abort of a command (42 R76 to R79; 60 R98) -/

theorem step_of_request {s : State} {cmd : Command} {rest : List Command} (hrom : s.rom.conforms = true) (hs : s.status ≠ .busy)
    (hreq : s.requests = cmd :: rest) : step s = .next ({ s with requests := rest }.accept cmd) := by
  rw [step_of_not_busy hrom hs, State.acceptNext, hreq]

/-- A command whose checks fail is taken off the host's list and aborted, in the one step (logs 1 and 6). -/
theorem step_of_rejected {s : State} {cmd : Command} {rest : List Command} {er : Error} (hrom : s.rom.conforms = true)
    (hs : s.status ≠ .busy) (hreq : s.requests = cmd :: rest) (h : checkCommand (latchCommand cmd) = some er) :
    step s = .next ({ s with requests := rest }.raise er) := by
  rw [step_of_request hrom hs hreq, State.accept_of_error _ h, State.raise]

/-- A machine that is not BUSY stays as it is while there is no command to accept (70 R107). -/
theorem State.after_of_noRequest {s : State} (hrom : s.rom.conforms = true) (hs : s.status ≠ .busy) (hreq : s.requests = [])
    (n : Nat) : s.after n = some s := by
  have hstep : step s = .next s := by rw [step_of_not_busy hrom hs, State.acceptNext, hreq]
  induction n with
  | zero => rfl
  | succ n ih => rw [State.after_succ_of_next hstep, ih]

/-- A command whose checks fail returns their error, whatever the machine and the schedule. -/
theorem State.decodeFrom_of_rejected (s : State) (turns : List Nat) {cmd : Command} {er : Error} (hrom : s.rom.conforms = true)
    (hs : s.status ≠ .busy) (h : checkCommand (latchCommand cmd) = some er) : s.decodeFrom turns cmd = some (.err er) := by
  have hstep : step { s with requests := [cmd], turns := turns } = .next ({ s with requests := [], turns := turns }.raise er) :=
    step_of_rejected hrom hs rfl h
  have hstays := State.after_of_noRequest (s := { s with requests := [], turns := turns }.raise er) hrom
    (by rw [State.raise_status]; nofun) rfl
  rw [State.decodeFrom, decodeSteps, State.after_succ_of_next hstep, hstays]
  rfl

/-! ## Three steps along a coded byte (42 R80, R82) -/

theorem exec_decodeByteFormat (m : Mode) (v : Byte) (s : State) :
    exec (decodeByteFormat m v) s =
      runOnSelected (fun b e => byteOps s.rom b m (slot0Field m v) (midField v) (slot2Field m v) e) s := by
  cases m <;> rfl

/-- A slot operation under conforming deltas completes in Narrow, and in Wide on a history in its range, which it keeps. -/
theorem slotOp_keeps_history {k : Nat} {t : Family k} (h : t.deltasOk = true) (b : Bound) {m : Mode} (v : Fin (2 * k)) {e : Engine}
    (hhist : m = .wide → e.cs.historyOk) : ∃ e', slotOp t b m v e = .ok e' ∧ (m = .wide → e'.cs.historyOk) := by
  cases m with
  | narrow =>
    obtain ⟨e', hop, -⟩ := slotOp_narrow h b v e
    exact ⟨e', hop, nofun⟩
  | wide =>
    obtain ⟨e', hop, heffect⟩ := slotOp_wide h b v e ((hhist rfl).arguments _)
    exact ⟨e', hop, fun hm => heffect.historyOk (hhist hm)⟩

/-- In channel order the engine that has moved moves again while its channel is not complete. -/
theorem State.selectedIn_commit {s : State} {b : Bound} {c : Nat} {e e' : Engine} (hturns : s.turns = [])
    (hsel : s.selectedIn b = some (c, e)) (he : e'.complete b = false) : (s.commit c e').selectedIn b = some (c, e') := by
  rw [State.selectedIn, hturns] at hsel
  rw [State.selectedIn, State.commit_turns, hturns]
  exact firstActive_set hsel he

/-- The machine in channel order, running command b, whose engine c moves next and is e. -/
structure State.InOrder (s : State) (b : Bound) (c : Nat) (e : Engine) : Prop where
  conforms : s.rom.conforms = true
  status   : s.status = .busy
  cmd      : s.cmd = some b
  turns    : s.turns = []
  selected : s.selectedIn b = some (c, e)

/-- A step in channel order is the slot operation on the byte that the fetch gives. -/
theorem State.InOrder.step_fetched {s : State} {b : Bound} {c : Nat} {e e₁ e' : Engine} {v : Byte} (h : s.InOrder b c e)
    (hfetch : s.fetch b c e = .latched v (s.setEngine c e₁)) (hcur : e₁.cur = e.cur)
    (hop : byteSlotOp s.rom b.mode e.cur.l v b e₁ = .ok e') : step s = .next (s.commit c e') := by
  obtain ⟨hrom, hs, hb, -, hsel⟩ := h
  have hsel' : (s.setEngine c e₁).selected = some (c, e₁) :=
    (State.selected_eq (s := s.setEngine c e₁) hb).trans (State.selectedIn_setEngine hsel hcur)
  rw [step_of_busy hrom hs, runCommand_of_latched hb hsel hfetch, exec_decodeVariant, State.setEngine_rom,
    runOnSelected_next (s := s.setEngine c e₁) hb hsel' hop]
  simp only [State.commit, State.setEngine, List.set_set]

/-- Inside a frame the engine that has moved stays the one that moves next. -/
theorem State.InOrder.commit {s : State} {b : Bound} {c : Nat} {e e' : Engine} (h : s.InOrder b c e)
    (hf : e'.cur.f = e.cur.f) : (s.commit c e').InOrder b c e' := by
  obtain ⟨hrom, hs, hb, hturns, hsel⟩ := h
  have hactive : e'.complete b = false := by
    rw [Engine.complete, hf]
    exact (State.selectedIn_some hsel).2
  exact ⟨hrom, hs, hb, by rw [State.commit_turns, hturns, List.tail_nil], State.selectedIn_commit hturns hsel hactive⟩

/-- Past slot 0 the step takes the byte from the latch. -/
theorem State.InOrder.step_latched {s : State} {b : Bound} {c : Nat} {e e' : Engine} {v : Byte} (h : s.InOrder b c e)
    (hl : e.cur.l ≠ .s0) (hlatch : e.latch = some v) (hop : byteSlotOp s.rom b.mode e.cur.l v b e = .ok e') :
    step s = .next (s.commit c e') := by
  refine h.step_fetched (e₁ := e) ?_ rfl hop
  rw [State.setEngine_self (State.selectedIn_some h.selected).1]
  exact s.fetch_of_latch hl hlatch

theorem Cursor.advance_of_s0 {u : Cursor} (h : u.l = .s0) (bpf : Nat) : u.advance bpf = ⟨u.f, u.k, .s1⟩ := by
  simp only [Cursor.advance, h]

theorem Cursor.advance_of_s1 {u : Cursor} (h : u.l = .s1) (bpf : Nat) : u.advance bpf = ⟨u.f, u.k, .s2⟩ := by
  simp only [Cursor.advance, h]

theorem Cursor.advance_of_s2 {u : Cursor} {bpf : Nat} (h : u.l = .s2) :
    u.advance bpf = if u.k + 1 = bpf then ⟨u.f + 1, 0, .s0⟩ else ⟨u.f, u.k + 1, .s0⟩ := by
  simp only [Cursor.advance, h]

/-! ## The obligations -/

/-- Settles O46: each engine stands where the loop nest of its channel stands after as many slot operations. -/
theorem decodeRunsTheLoopNest : Obligations.DecodeRunsTheLoopNest := by
  intro s turns cmd _ hrom hs hlegal
  obtain ⟨outs, hrun, houts⟩ := s.decodeFrom_loopNest turns hrom hs hlegal
  exact ⟨outs, hrun, houts.count, houts.channel⟩

/-- Settles O47: the outputs are the loop nest's, whose length counts its slot operations. -/
theorem outputLengthLaw : Obligations.OutputLengthLaw := by
  intro s turns cmd _ hrom hs hlegal
  have hchannels := hlegal.channels
  obtain ⟨outs, hrun, houts⟩ := s.decodeFrom_loopNest turns hrom hs hlegal
  refine ⟨outs, hrun, by rw [houts.count]; omega, fun out hout => ?_⟩
  obtain ⟨ch, hch⟩ := List.getElem?_of_mem hout
  obtain ⟨cs, href⟩ := houts.channel ch out hch
  obtain ⟨hnarrow, hwide⟩ := samples_of_channel hlegal.frames
  rw [referenceChannel_length href]
  exact ⟨fun hm => hm ▸ hnarrow, fun hm => hm ▸ hwide⟩

/-- Settles O50: the lane's loop nest reads the bytes that the channel's loop nest reads. -/
theorem channelsAreIndependent : Obligations.ChannelsAreIndependent := by
  intro s turns turns' cmd ch _ hrom hs hlegal hch
  obtain ⟨outs, hrun, houts⟩ := s.decodeFrom_loopNest turns hrom hs hlegal
  obtain ⟨outs', hrun', houts'⟩ := s.decodeFrom_loopNest turns' hrom hs (hlegal.lane ch)
  have hlt : ch < outs.length := by rw [houts.count]; omega
  have hout := List.getElem?_eq_getElem hlt
  cases houts'.unique (houts.lane hout)
  exact ⟨outs, outs[ch], hrun, hout, hrun'⟩

/-- Settles O51: a legal command returns the outputs of its loop nest, any other one the error of its checks. -/
theorem commandsAreIndependentAndDeterministic : Obligations.CommandsAreIndependentAndDeterministic := by
  intro s s' turns turns' cmd _ _ hrom hsame hs hs'
  have hrom' : s'.rom.conforms = true := hsame ▸ hrom
  cases hcheck : checkCommand (latchCommand cmd) with
  | some er => exact ⟨.err er, s.decodeFrom_of_rejected turns hrom hs hcheck, s'.decodeFrom_of_rejected turns' hrom' hs' hcheck⟩
  | none =>
    obtain ⟨outs, hrun, houts⟩ := s.decodeFrom_loopNest turns hrom hs (Command.legal_iff.2 hcheck)
    obtain ⟨outs', hrun', houts'⟩ := s'.decodeFrom_loopNest turns' hrom' hs' (Command.legal_iff.2 hcheck)
    cases houts.unique (hsame ▸ houts')
    exact ⟨.ok outs, hrun, hrun'⟩

/-- Settles O17: each of the three runs its family's slot operation, which never stops in Narrow. -/
theorem narrowSlotOperationsComplete : Obligations.NarrowSlotOperationsComplete := fun _ _ _ _ hrom hcmd hsel =>
  ⟨fun v => runOnSelected_narrow (Tables.conforms_wideDeltas hrom) hcmd hsel v.toFin,
   fun v => runOnSelected_narrow (Tables.conforms_narrowDeltas hrom) hcmd hsel v.toFin,
   fun v => runOnSelected_narrow (Tables.conforms_wideDeltas hrom) hcmd hsel v.toFin⟩

/-- Settles O19: each of the three runs its family's slot operation, which in Wide only its sample arguments can stop. -/
theorem wideSlotOperationsComplete : Obligations.WideSlotOperationsComplete := fun _ _ _ _ hrom hcmd hsel =>
  ⟨fun v => runOnSelected_wide (Tables.conforms_wideDeltas hrom) hcmd hsel v.toFin,
   fun v => runOnSelected_wide (Tables.conforms_narrowDeltas hrom) hcmd hsel v.toFin,
   fun v => runOnSelected_wide (Tables.conforms_wideDeltas hrom) hcmd hsel v.toFin⟩

/-- Settles O27: an address is a number in the mixed base of bytes, channels and frames, and (k, c, f) are its digits. -/
theorem addressesCoverTheRequiredBytesOnce : Obligations.AddressesCoverTheRequiredBytesOnce := by
  intro m C F hC
  have hL := bytesPerFrame_pos m
  refine ⟨fun c f k hc hf hk => addrWith_laneStride_inside (Int.ofNat_lt.2 hc) (Int.ofNat_lt.2 hf) hk, fun n hn => ?_⟩
  have hframe : n / bytesPerFrame m / C < F := Nat.div_lt_of_lt_mul (Nat.div_lt_of_lt_mul (Nat.mul_comm _ (C * F) ▸ hn))
  obtain ⟨hc, hk, haddr⟩ := (laneDigits_unique hC hL).2 ⟨rfl, rfl, rfl⟩
  refine ⟨(n / bytesPerFrame m % C, n / bytesPerFrame m / C, n % bytesPerFrame m), ⟨⟨hc, hframe, hk⟩, ?_⟩, ?_⟩
  · rw [addrWith_laneStride_eq, haddr]
  · rintro ⟨c, f, k⟩ ⟨⟨hc, -, hk⟩, hn⟩
    rw [addrWith_laneStride_eq, Int.natCast_inj] at hn
    obtain ⟨rfl, rfl, rfl⟩ := (laneDigits_unique hC hL).1 ⟨hc, hk, hn⟩
    rfl

/-- Settles O40: the engine that moves stays selected through its byte, and its three steps are the three slot operations. -/
theorem threeStepsRunOneCodedByte : Obligations.ThreeStepsRunOneCodedByte := by
  intro s b c e v hrom hs hb hturns hsel hl hread hhist
  have h₀ : s.InOrder b c e := ⟨hrom, hs, hb, hturns, (State.selected_eq hb).symm.trans hsel⟩
  have hwide := Tables.conforms_wideDeltas hrom
  have hnarrow := Tables.conforms_narrowDeltas hrom
  obtain ⟨e₁, hop₁, hhist₁⟩ :=
    slotOp_keeps_history hwide b (slot0Field b.mode v).toFin (e := { e with latch := some v }) hhist
  obtain ⟨e₂, hop₂, hhist₂⟩ := slotOp_keeps_history hnarrow b (midField v).toFin hhist₁
  obtain ⟨e₃, hop₃, -⟩ := slotOp_keeps_history hwide b (slot2Field b.mode v).toFin hhist₂
  have hcur₁ : e₁.cur = ⟨e.cur.f, e.cur.k, .s1⟩ := (slotOp_moved hop₁).cur.trans (Cursor.advance_of_s0 hl _)
  have hcur₂ : e₂.cur = ⟨e.cur.f, e.cur.k, .s2⟩ := by
    rw [(slotOp_moved hop₂).cur, hcur₁]
    rfl
  have hlatch₁ : e₁.latch = some v := (slotOp_moved hop₁).latch
  have hlatch₂ : e₂.latch = some v := (slotOp_moved hop₂).latch.trans hlatch₁
  have hstep₁ := h₀.step_fetched (s.fetch_of_read hl hread) rfl (by rw [hl]; exact hop₁)
  have h₁ := h₀.commit (e' := e₁) (by rw [hcur₁])
  have hstep₂ := h₁.step_latched (by rw [hcur₁]; nofun) hlatch₁ (by rw [hcur₁]; exact hop₂)
  have h₂ := h₁.commit (e' := e₂) (by rw [hcur₂, hcur₁])
  have hstep₃ := h₂.step_latched (by rw [hcur₂]; nofun) hlatch₂ (by rw [hcur₂]; exact hop₃)
  refine ⟨((s.commit c e₁).commit c e₂).commit c e₃, ?steps, ?move⟩
  case steps =>
    rw [State.after_succ_of_next hstep₁, State.after_succ_of_next hstep₂, State.after_succ_of_next hstep₃, State.after_zero]
  case move =>
    have hsel' : (s.setEngine c { e with latch := some v }).selected = some (c, { e with latch := some v }) :=
      (State.selected_eq (s := s.setEngine c _) hb).trans (State.selectedIn_setEngine h₀.selected rfl)
    rw [exec_decodeByteFormat, State.setEngine_rom,
      runOnSelected_next (s := s.setEngine c _) hb hsel' ((byteOps_eq_slot2 hop₁ hop₂ _).trans hop₃)]
    simp only [State.commit, State.setEngine, List.set_set, hturns, List.tail_nil]

/-- Settles O29: one equation of the advance per slot, and one position further in each. -/
theorem cursorAdvancesInLoopOrder : Obligations.CursorAdvancesInLoopOrder := by
  intro bpf u hk
  refine ⟨Cursor.position_advance bpf u, ?_, fun hl => Cursor.advance_of_s0 hl bpf, fun hl => Cursor.advance_of_s1 hl bpf,
    fun hl hlt => (Cursor.advance_of_s2 hl).trans (if_neg hlt.ne), fun hl heq => (Cursor.advance_of_s2 hl).trans (if_pos heq)⟩
  rcases Cursor.advance_cases bpf u with ⟨-, hk', -⟩ | ⟨-, hne, hu⟩ | ⟨-, -, hu⟩
  · rw [hk']; exact hk
  · rw [hu]; exact Nat.lt_of_le_of_ne hk hne
  · rw [hu]; exact Nat.zero_lt_of_lt hk

/-- Settles O36: the first check rejects illegal counts; past it only the buffer's length can be rejected. -/
theorem illegalCountsAbortAsInvalidParameters : Obligations.IllegalCountsAbortAsInvalidParameters := by
  intro s cmd rest hrom hs hreq
  refine ⟨fun hillegal => ?_, fun hchannels hframes => ?_⟩
  · exact ⟨_, step_of_rejected hrom hs hreq (checkCommand_of_illegalCounts hillegal), rfl, rfl, rfl, rfl, rfl, rfl, rfl⟩
  · by_cases hshort : (cmd.buffer.length : Int) < cmd.channelCount * cmd.frameCount * bytesPerFrame cmd.mode
    · exact ⟨_, step_of_rejected hrom hs hreq (checkCommand_of_shortBuffer hchannels hframes hshort), nofun, nofun⟩
    · have hlegal : cmd.Legal := ⟨hchannels, hframes, not_lt.1 hshort⟩
      refine ⟨_, step_of_request hrom hs hreq, ?_⟩
      rw [State.accept_of_ok _ hlegal.checkCommand]
      exact ⟨nofun, nofun⟩

/-- Settles O37: the second check rejects the short buffer. -/
theorem shortBufferAbortsAsOutOfRangeAccess : Obligations.ShortBufferAbortsAsOutOfRangeAccess := by
  intro s cmd rest hrom hs hreq hchannels hframes hshort
  exact ⟨_, step_of_rejected hrom hs hreq (checkCommand_of_shortBuffer hchannels hframes hshort), rfl, rfl, rfl, rfl, rfl, rfl, rfl⟩

/-- Settles O39: no engine is selected, so the step is the completion. -/
theorem completionReturnsTheOutputs : Obligations.CompletionReturnsTheOutputs := by
  intro s b hrom hs hb hdone
  have hsel : s.selectedIn b = none := State.selectedIn_none.2 fun e he => decide_eq_true (hdone e he)
  exact ⟨s.finish, (step_of_busy hrom hs).trans (runCommand_of_complete hb hsel), rfl, rfl, rfl, rfl, rfl, rfl⟩

end Sys2Proof.Machine

/-! The schedules of the engines: the moves that an engine has still to make are its own, so they lead it to one end, whatever
the order in which the engines move (20 R45; 60 R105); and the range of the addresses (60 R100). -/

namespace Sys2Proof.Machine

/-! ## The end of an engine's channel (42 R80) -/

/-- The engine of channel c after n moves. -/
def Engine.moves (rom : Tables) (b : Bound) (c : Nat) : Nat → Engine → Except Fault Engine
  | 0, e => .ok e
  | n + 1, e => e.move rom b c >>= Engine.moves rom b c n

/-- The engine of channel c after the moves it has still to make. -/
def Engine.runToEnd (rom : Tables) (b : Bound) (c : Nat) (e : Engine) : Except Fault Engine :=
  Engine.moves rom b c (e.movesLeft b) e

theorem Engine.moves_succ_of_move {rom : Tables} {b : Bound} {c : Nat} {e e' : Engine} (h : e.move rom b c = .ok e') (n : Nat) :
    Engine.moves rom b c (n + 1) e = Engine.moves rom b c n e' := by
  rw [Engine.moves, h]
  rfl

/-- A move of an engine leaves its end as it was. -/
theorem Engine.Inv.runToEnd_move {rom : Tables} {b : Bound} {c : Nat} {e e' : Engine} (h : e.Inv b c) (hactive : e.complete b = false)
    (hmove : e.move rom b c = .ok e') : e'.runToEnd rom b c = e.runToEnd rom b c := by
  rw [Engine.runToEnd, Engine.runToEnd, h.movesLeft_move hactive hmove, Engine.moves_succ_of_move hmove]

/-- A complete engine stands at its end. -/
theorem Engine.Inv.runToEnd_of_complete {b : Bound} {c : Nat} {e : Engine} (h : e.Inv b c) (hdone : e.complete b = true)
    (rom : Tables) : e.runToEnd rom b c = .ok e := by
  rw [Engine.runToEnd, Engine.movesLeft, h.position_of_complete hdone, Nat.sub_self, Engine.moves]

/-! ## Running the engines under any schedule (60 R105) -/

/-- The engine of channel c has the end that channel c has in es. -/
def Engine.EndsAsIn (rom : Tables) (b : Bound) (es : List Engine) (c : Nat) (e : Engine) : Prop :=
  es[c]?.map (Engine.runToEnd rom b c) = some (e.runToEnd rom b c)

theorem movesKeep_endsAsIn (rom : Tables) (b : Bound) (es : List Engine) : MovesKeep rom b (Engine.EndsAsIn rom b es) :=
  fun _ _ _ hinv hactive hend hmove => hend.trans (congrArg some (hinv.runToEnd_move hactive hmove).symm)

/-- A machine that runs a command on a conforming ROM runs it under every schedule, towards the ends its engines have. -/
theorem State.BusyInv.running {s : State} {b : Bound} (h : s.BusyInv b) (hrom : s.rom.conforms = true) (hs : s.status = .busy)
    (hb : s.cmd = some b) (turns : List Nat) :
    State.Running s.rom b (Engine.EndsAsIn s.rom b s.engines) { s with turns := turns } where
  tables := rfl
  conforms := hrom
  status := hs
  cmd := hb
  inv := ⟨h.code, h.pending, h.bound, h.count, h.engine⟩
  engine c _ he := congrArg (Option.map (Engine.runToEnd s.rom b c)) he

/-- Machines that ran their engines to the same ends hold the same engines. -/
theorem State.Running.engines_unique {rom : Tables} {b : Bound} {es : List Engine} {u u' : State}
    (h : u.Running rom b (Engine.EndsAsIn rom b es)) (h' : u'.Running rom b (Engine.EndsAsIn rom b es))
    (hdone : ∀ e ∈ u.engines, e.complete b = true) (hdone' : ∀ e ∈ u'.engines, e.complete b = true) :
    u.engines = u'.engines := by
  have hcount : (u.engines.length : Int) = u'.engines.length := h.inv.count.trans h'.inv.count.symm
  refine List.ext_getElem (Int.ofNat_inj.1 hcount) fun c hc hc' => ?_
  have he := List.getElem?_eq_getElem hc
  have he' := List.getElem?_eq_getElem hc'
  have hend := Option.some.inj ((h.engine c _ he).symm.trans (h'.engine c _ he'))
  rw [(h.inv.engine c _ he).runToEnd_of_complete (hdone _ (List.getElem_mem hc)),
    (h'.inv.engine c _ he').runToEnd_of_complete (hdone' _ (List.getElem_mem hc'))] at hend
  exact Except.ok.inj hend

/-! ## The obligations -/

/-- Settles O48: both schedules make as many moves and bring each engine to its one end. -/
theorem everyScheduleGivesTheSameResult : Obligations.EveryScheduleGivesTheSameResult := by
  intro s turns hinv hrom hs
  obtain ⟨b, hb⟩ := hinv.exists_bound hs
  have hbusy : s.BusyInv b := (State.inv_busy hs hb).1 hinv
  obtain ⟨u, hu, hdone, hafter⟩ := (hbusy.running hrom hs hb s.turns).after_finish (movesKeep_endsAsIn s.rom b s.engines)
  obtain ⟨u', hu', hdone', hafter'⟩ := (hbusy.running hrom hs hb turns).after_finish (movesKeep_endsAsIn s.rom b s.engines)
  have hengines : u.engines = u'.engines := hu.engines_unique hu' hdone hdone'
  exact ⟨_, u.finish, u'.finish, hafter, hafter', rfl, rfl, by rw [State.finish, State.finish, hengines]⟩

/-- Settles O28: a lane is no wider than the frame of a channel, so C·(f + 1)·bpf bounds the addresses of frame f. -/
theorem addressesStayInRangeForEveryLaneStride : Obligations.AddressesStayInRangeForEveryLaneStride :=
  fun _ _ _ _ _ _ _ => addrWith_inside

end Sys2Proof.Machine

/-! Power-on, the machine without a command, and the acceptance of a legal command (70 R107, R108; 42 R79). -/

namespace Sys2Proof.Machine

/-- The reset's TABLES instance meets the constraints (10 R27; log 2). -/
theorem romInstance_conforms : romInstance.conforms = true := by decide

/-- A legal command is taken off the host's list, bound, and given one fresh engine per channel, in the one step (logs 1 and 6). -/
theorem step_of_accepted {s : State} {cmd : Command} {rest : List Command} (hrom : s.rom.conforms = true) (hs : s.status ≠ .busy)
    (hreq : s.requests = cmd :: rest) (hlegal : cmd.Legal) :
    step s = .next { s with
      requests := rest
      status := .busy
      errCode := .none
      cmd := some (latchCommand cmd)
      result := none
      engines := List.replicate cmd.channelCount.toNat Engine.fresh } := by
  rw [step_of_request hrom hs hreq, State.accept_of_ok _ hlegal.checkCommand]

/-! ## The obligations -/

/-- Settles O38: the step binds the latched command, and every engine of the new list is the fresh one. -/
theorem legalCommandAllocatesFreshChannels : Obligations.LegalCommandAllocatesFreshChannels := by
  intro s cmd rest hrom hs hreq hlegal
  refine ⟨_, latchCommand cmd, step_of_accepted hrom hs hreq hlegal, rfl, rfl, rfl, rfl, rfl, rfl, rfl,
    fun n hn => memRead_latchCommand cmd hn, ?_, fun c e he => ?_, rfl, rfl, rfl⟩
  · have hchannels := hlegal.channels
    rw [List.length_replicate]
    omega
  · have hfresh : e = Engine.fresh := List.eq_of_mem_replicate (List.mem_of_getElem? he)
    rw [hfresh]
    exact ⟨rfl, rfl, rfl, rfl, rfl, rfl, rfl, rfl⟩

/-- Settles O34: each field by the definition of power-on, and the reset's instance by evaluating the check. -/
theorem powerOnState : Obligations.PowerOnState :=
  fun _ => ⟨rfl, rfl, rfl, rfl, rfl, rfl, rfl, rfl, rfl, romInstance_conforms⟩

/-- Settles O35: with no command to accept, the step of a machine that is not BUSY leaves the state. -/
theorem machineWithoutCommandStaysAsItIs : Obligations.MachineWithoutCommandStaysAsItIs := by
  intro s hrom hs hreq
  rw [step_of_not_busy hrom hs, State.acceptNext, hreq]

end Sys2Proof.Machine
